-- ==== Sys2Proof/Word.lean ====
section
/-! DEFINITION. The two word types of SCCA-CORE (00_scope.md R5 `XLEN`, `PC_WIDTH`; R7). -/

namespace Sys2Proof

/-- A register, a memory cell, an opcode or an operand byte: 8 bits (R5 `XLEN`). -/
abbrev Byte := BitVec 8

/-- The program counter and every address a rule forms: 9 bits, so that 256 can be held (R25, R50). -/
abbrev Addr := BitVec 9

end Sys2Proof
end

