-- ==== Sys2Proof/Config.lean ====
section
/-! DEFINITION. The parameters of 00_scope.md R5 that fix sizes and reset values. The opcode map stands in
Decode.lean, the flag bits in Machine/Flags.lean and the exception codes in Machine/Ops.lean. The spec leaves no
value free (R11 point 6), so there is no opaque constant here. -/

namespace Sys2Proof.Config

/-- `MEM_SIZE`: number of memory cells (R5, R36). -/
def memSize : Nat := 256

/-- `MEM_FILL`: what a cell outside the program image holds at reset (R5, R241). -/
def memFill : Byte := 0x00#8

/-- `IMG_BASE`: where the image is placed (R5, R241). -/
def imgBase : Nat := 0

/-- `IMG_MAX`: the longest image inside the loader's contract (R5, R242). -/
def imgMax : Nat := 256

/-- `GPR_RESET`: registers 0..6 at reset (R5, R23; the spec's decision D5, log entry 2). -/
def gprReset : Byte := 0x00#8

/-- `SP_RESET`: register 7 at reset (R5, R23). -/
def spReset : Byte := 0xF4#8

/-- `PC_RESET`: the program counter at reset (R5, R28). -/
def pcReset : Addr := 0#9

/-- `FL_RESET`: the flags register at reset (R5, R31; the spec's decision D6, log entry 2). -/
def flReset : Byte := 0x00#8

end Sys2Proof.Config
end

