-- ==== Sys2Proof/Machine/State.lean ====
section
/-! DEFINITION. The whole state of SCCA-CORE (10_state.md R40), the reasons a step ends without a next state, and the
state right after reset. Plain data. -/

namespace Sys2Proof.Machine

/-- What an `OutOfRangeAccess` was about: `(mem, address)` or `(reg, index)` (60_exceptions.md R201). -/
inductive BadIndex
  | mem (addr : Addr)
  | reg (index : Byte)
  deriving DecidableEq, Repr

/-- The three fatal exceptions, each with the `info` it records (R201). -/
inductive FatalError
  /-- The raw byte fetched as an opcode (R203). -/
  | invalidOpcode (opc : Byte)
  /-- Kept for the taxonomy; no rule raises it (R148, R204). -/
  | unsupportedOperation (opc : Byte)
  /-- A memory address above 255 or a register index above 7 (R202). -/
  | outOfRangeAccess (what : BadIndex)
  deriving DecidableEq, Repr

/-- `Some(cause, fpc, info)`: `error` is the cause with its info, `fpc` is `pc` when the instruction was fetched (R33; log
entry 7). -/
structure FaultRecord where
  error : FatalError
  fpc : Addr
  deriving DecidableEq, Repr

/-- The 256 cells, as the strictly rising list of the cells that differ from `Config.memFill` (R36; log entry 4). -/
abbrev Memory := List Host.Cell

/-- The state tuple of R40, one field per component. -/
structure State where
  /-- `x[0..7]` (R20); `x[7]` is the stack pointer (R21). -/
  regs : Vector Byte 8
  /-- The program counter (R25). -/
  pc : Addr
  /-- The flags register `FL` (R29). -/
  fl : Byte
  /-- The halted flag (R32). -/
  halted : Bool
  /-- The fault record, the diagnostic channel (R33). -/
  fault : Option FaultRecord
  /-- `M[0..255]` (R36). -/
  mem : Memory
  /-- `OUT`, the bytes emitted since reset, oldest first (R35). -/
  out : List Byte
  deriving DecidableEq, Repr

/-- The three values of the machine's status (R34). -/
inductive Status
  | running
  | halted
  | faulted
  deriving DecidableEq, Repr

/-- Why there is no next state. Raised by `step` alone, from a terminal state, never by an instruction: an exception
of the spec is a next state that holds the fault record (R206). -/
inductive Fault
  /-- `step` of a `Halted` state: "no step is taken" (R110; log entry 1). Safe: no behaviour is invented. -/
  | machineHalted
  /-- `step` of a `Faulted` state: "no step is taken" (R110; log entry 1). Safe: no behaviour is invented. -/
  | machineFaulted
  deriving DecidableEq, Repr

/-- What the model declines to give a meaning to. -/
inductive Refusal
  /-- An instruction `exec` does not model yet. No arm of this model raises it. Safe. -/
  | notModelled (mnemonic : String)
  /-- `boot` of an image longer than 256 bytes: outside the loader's contract (70_reset_and_hazards.md R242). Safe. -/
  | imageTooLong
  deriving DecidableEq, Repr

/-- The registers at reset: `x[0..6]` and `x[7] = SP` (R23). -/
def State.resetRegs : Vector Byte 8 :=
  #v[Config.gprReset, Config.gprReset, Config.gprReset, Config.gprReset,
     Config.gprReset, Config.gprReset, Config.gprReset, Config.spReset]

/-- The machine right after `Reset` of the empty image (R40, R242, R243; log entry 3). -/
def State.reset : State where
  regs := State.resetRegs
  pc := Config.pcReset
  fl := Config.flReset
  halted := false
  fault := none
  mem := []
  out := []

end Sys2Proof.Machine
end

