-- ==== Sys2Proof/Machine/Ops.lean ====
section
/-! DEFINITION. The named operations every rule is written over: memory cells and the two access primitives, the
accessors of the state, taking an exception, and ending an execute phase. There is no return from an exception to put
beside `raise`: the hardware has none (60_exceptions.md R205, R209). -/

namespace Sys2Proof.Machine

/-! ### Memory cells (10_state.md R36) -/

/-- `M[a]`: the listed byte, or the fill byte for an unlisted address. -/
def Memory.cell : Memory → Nat → Byte
  | [], _ => Config.memFill
  | (k, w) :: m, a => if k = a then w else Memory.cell m a

/-- A cell in front of a memory, left out when it holds the fill byte. -/
def Memory.cons (a : Nat) (v : Byte) (m : Memory) : Memory :=
  if v = Config.memFill then m else (a, v) :: m

/-- `M[a] <- v`, keeping the canonical form. -/
def Memory.set : Memory → Nat → Byte → Memory
  | [], a, v => Memory.cons a v []
  | (k, w) :: m, a, v =>
    if a < k then Memory.cons a v ((k, w) :: m)
    else if a = k then Memory.cons a v m
    else (k, w) :: Memory.set m a v

/-- Addresses strictly rising from `lo` on and below `Config.memSize`, and no cell holding the fill byte. -/
def Memory.wfFrom : Nat → Memory → Bool
  | _, [] => true
  | lo, (k, w) :: m =>
    decide (lo ≤ k) && decide (k < Config.memSize) && decide (w ≠ Config.memFill) && Memory.wfFrom (k + 1) m

/-- The canonical form of memory: equal memories are equal lists. -/
def Memory.wf (m : Memory) : Bool := Memory.wfFrom 0 m

/-- The cells of an image placed from address `a` up (70_reset_and_hazards.md R241). -/
def Memory.ofImage : Nat → List Byte → Memory
  | _, [] => []
  | a, b :: bs => Memory.cons a b (Memory.ofImage (a + 1) bs)

/-! ### Accessors of the state -/

/-- Read of register `r` (R20). -/
def State.reg (s : State) (r : Fin 8) : Byte := s.regs[r.val]

/-- Write of register `r`; no register is hardwired (R20). -/
def State.setReg (s : State) (r : Fin 8) (v : Byte) : State := { s with regs := s.regs.set r.val v }

/-- `SP_INDEX`: the register the stack instructions use implicitly (R21). -/
def spIndex : Fin 8 := 7

/-- Read of `SP`, another name for `x[7]` (R7, R21). -/
def State.sp (s : State) : Byte := s.reg spIndex

/-- Write of `SP`. -/
def State.setSp (s : State) (v : Byte) : State := s.setReg spIndex v

/-- Write of the program counter (R26). -/
def State.setPc (s : State) (p : Addr) : State := { s with pc := p }

/-- Write of the flags register (R30). -/
def State.setFl (s : State) (v : Byte) : State := { s with fl := v }

/-- `halted <- 1` (R32). -/
def State.setHalted (s : State) : State := { s with halted := true }

/-- Write of the fault record (R33). -/
def State.setFault (s : State) (f : FaultRecord) : State := { s with fault := some f }

/-- Write of one memory cell; only `memWrite` and `withFetchWord` use it (20_memory.md R50). -/
def State.setCell (s : State) (a : Nat) (v : Byte) : State := { s with mem := s.mem.set a v }

/-- `Emit(v)`: hand a byte to the output channel (40_cycle_and_system.md R121). -/
def State.emit (s : State) (v : Byte) : State := { s with out := s.out ++ [v] }

/-- `M[a]` of a state; no side effect (R51, R57). -/
def State.cell (s : State) (a : Nat) : Byte := s.mem.cell a

/-- The status, a function of `halted` and `fault`; they never hold together (R34; log entry 8). -/
def State.status (s : State) : Status :=
  match s.halted, s.fault with
  | true, _ => .halted
  | false, some _ => .faulted
  | false, none => .running

/-! ### The two access primitives (20_memory.md R50 to R52) -/

/-- `MemRead(addr, 1)`: the byte at `addr`, or the exception for an address above 255 (R51). -/
def memRead (addr : Addr) (s : State) : Except FatalError Byte :=
  if addr.toNat < Config.memSize then .ok (s.cell addr.toNat)
  else .error (.outOfRangeAccess (.mem addr))

/-- `MemWrite(addr, 1, v)`: the state with the byte stored, or the exception for an address above 255 (R52). -/
def memWrite (addr : Addr) (v : Byte) (s : State) : Except FatalError State :=
  if addr.toNat < Config.memSize then .ok (s.setCell addr.toNat v)
  else .error (.outOfRangeAccess (.mem addr))

/-! ### Exceptions (60_exceptions.md R200 to R209) -/

/-- The numeric code of an exception (R201; the spec's decision D14, log entry 2). -/
def FatalError.code : FatalError → Nat
  | .invalidOpcode _ => 1
  | .unsupportedOperation _ => 2
  | .outOfRangeAccess _ => 3

/-- `raise E(info)`, the whole of taking an exception: the fault record is written with the `pc` of the faulting
instruction and nothing else is; `halted` stays as it is and `pc` does not move (R206). -/
def raise (e : FatalError) (s : State) : State := s.setFault { error := e, fpc := s.pc }

/-- The end of a step begun in `s`: the instruction's writes take effect together, or the exception is taken in the
state before the step and every other write is discarded (R110, R206). -/
def finish (s : State) : Except FatalError State → Host.Outcome State Fault Refusal
  | .ok t => .next t
  | .error e => .next (raise e s)

end Sys2Proof.Machine
end

