-- ==== Sys2Proof/Machine/Boot.lean ====
section
/-! DEFINITION. `Reset(img)` (70_reset_and_hazards.md R240 to R243): the event that hands a program image to the
machine. It is the environment's one move and no step (R246; log entries 3 and 9). -/

namespace Sys2Proof.Machine

/-- `Reset(img)`: the image at address 0, zeros above it, everything else at its reset value; an image longer than 256
bytes is refused (R241, R242, R243). -/
def boot (img : List Byte) : Host.Outcome State Fault Refusal :=
  if img.length ≤ Config.imgMax then .next { State.reset with mem := Memory.ofImage Config.imgBase img }
  else .refused .imageTooLong

end Sys2Proof.Machine
end

