-- ==== Sys2Proof/Machine/Flags.lean ====
section
/-! DEFINITION. The flags register: its three bits and the one computation that writes it (10_state.md R29, R30;
42_alu.md R141, R146). No other flag exists. -/

namespace Sys2Proof.Machine

/-- `FL` with `L` alone set: bit 2 (R29; layout the spec's decision D2, log entry 2). -/
def flLess : Byte := 0b00000100#8

/-- `FL` with `G` alone set: bit 1. -/
def flGreater : Byte := 0b00000010#8

/-- `FL` with `E` alone set: bit 0. -/
def flEqual : Byte := 0b00000001#8

/-- `cmp8(p, q)` as the value `FL` takes: an unsigned comparison, exactly one flag set (R141, R146). -/
def cmp8 (p q : Byte) : Byte :=
  if p.toNat < q.toNat then flLess else if q.toNat < p.toNat then flGreater else flEqual

/-- `FL.E`, the one flag an instruction can test (R30). -/
def State.flE (s : State) : Bool := s.fl[0]

end Sys2Proof.Machine
end

