-- ==== Sys2Proof/Syntax.lean ====
section
/-! DEFINITION. The instruction set: one constructor per row of spec/opcode_table.json (30_encoding.md R88).
Operands are the operand bytes as they stand in memory, `a` first (R82, R83); which of them are legal is
WellFormed.lean's business. -/

namespace Sys2Proof

/-- The 13 instructions. A field named `a` or `b` in a `reg` role is a register index byte, `v` an immediate (R83). -/
inductive Instr
  | halt
  /-- RETURN (its name is a keyword of Lean). -/
  | ret
  | push (a : Byte)
  | pop (a : Byte)
  | printRegister (a : Byte)
  | call (a : Byte)
  | jump (a : Byte)
  | jumpIfEqual (a : Byte)
  | jumpIfNotEqual (a : Byte)
  | loadImmediate (a v : Byte)
  | add (a b : Byte)
  | multiply (a b : Byte)
  | compare (a b : Byte)
  deriving DecidableEq, Repr

/-- The operand bytes of an instruction in address order (R83). -/
def Instr.operands : Instr → List Byte
  | .halt => []
  | .ret => []
  | .push a => [a]
  | .pop a => [a]
  | .printRegister a => [a]
  | .call a => [a]
  | .jump a => [a]
  | .jumpIfEqual a => [a]
  | .jumpIfNotEqual a => [a]
  | .loadImmediate a v => [a, v]
  | .add a b => [a, b]
  | .multiply a b => [a, b]
  | .compare a b => [a, b]

/-- The operand bytes in a `reg` role, in the order `a` then `b` (R83, R85). -/
def Instr.regOperands : Instr → List Byte
  | .halt => []
  | .ret => []
  | .push a => [a]
  | .pop a => [a]
  | .printRegister a => [a]
  | .call a => [a]
  | .jump a => [a]
  | .jumpIfEqual a => [a]
  | .jumpIfNotEqual a => [a]
  | .loadImmediate a _ => [a]
  | .add a b => [a, b]
  | .multiply a b => [a, b]
  | .compare a b => [a, b]

end Sys2Proof
end

