-- ==== Sys2Proof/WellFormed.lean ====
section
/-! DEFINITION. Which instructions the encoding admits: every operand byte in a `reg` role names a register 0..7
(30_encoding.md R85). An immediate may be any byte (R84), and nothing else is constrained (R91). -/

namespace Sys2Proof

/-- Every register operand of `i` is 0..7; the whole byte is compared, no bit of it is ignored (R85). -/
def Instr.wellFormed (i : Instr) : Bool :=
  i.regOperands.all fun b => decide (b.toNat ≤ 7)

end Sys2Proof
end

