-- ==== Sys2Proof/Decode.lean ====
section
/-! DEFINITION. The opcode map, the decoder (total on any list of bytes) and the encoder (30_encoding.md R80 to R92,
40_cycle_and_system.md R112). The byte VALUES are the spec's decision D1 (log entry 2). -/

namespace Sys2Proof

/-- The closed set of opcode variants (R87(d)). -/
inductive Opcode
  | halt | ret | push | pop | printRegister | call | jump | jumpIfEqual | jumpIfNotEqual
  | loadImmediate | add | multiply | compare
  deriving DecidableEq, Repr

/-- The opcode byte of each instruction (R88). -/
def Opcode.byte : Opcode → Byte
  | .halt => 0x01#8
  | .ret => 0x11#8
  | .push => 0x45#8
  | .pop => 0x46#8
  | .printRegister => 0x47#8
  | .call => 0x50#8
  | .jump => 0x54#8
  | .jumpIfEqual => 0x55#8
  | .jumpIfNotEqual => 0x56#8
  | .loadImmediate => 0x82#8
  | .add => 0xA0#8
  | .multiply => 0xA2#8
  | .compare => 0xA7#8

/-- All opcodes, in the order of the table (R88). -/
def Opcode.all : List Opcode :=
  [.halt, .ret, .push, .pop, .printRegister, .call, .jump, .jumpIfEqual, .jumpIfNotEqual,
   .loadImmediate, .add, .multiply, .compare]

/-- The opcode a byte stands for: the whole byte is matched (R81, R89); every other byte is unassigned (R90). -/
def opcodeOf (b : Byte) : Option Opcode :=
  Opcode.all.find? fun o => o.byte == b

/-- `N = opc[7:6]`: how many operand bytes follow the opcode byte (R80). -/
def operandCount (opc : Byte) : Nat := opc.toNat >>> 6

/-- The instruction an opcode makes of its operand bytes `a`, `b`; the bytes its format lacks are not looked at (R83). -/
def Opcode.instr (o : Opcode) (a b : Byte) : Instr :=
  match o with
  | .halt => .halt
  | .ret => .ret
  | .push => .push a
  | .pop => .pop a
  | .printRegister => .printRegister a
  | .call => .call a
  | .jump => .jump a
  | .jumpIfEqual => .jumpIfEqual a
  | .jumpIfNotEqual => .jumpIfNotEqual a
  | .loadImmediate => .loadImmediate a b
  | .add => .add a b
  | .multiply => .multiply a b
  | .compare => .compare a b

/-- `RegIdx(b)`: the register a byte in a `reg` role names, or none when the byte is above 7 (R85). -/
def regIdx (b : Byte) : Option (Fin 8) :=
  if h : b.toNat < 8 then some ⟨b.toNat, h⟩ else none

/-- Why bytes are no instruction (R112, R208). -/
inductive Reject
  /-- The first byte is not one of the 13 opcodes (R90). -/
  | invalidOpcode (opc : Byte)
  /-- Byte number `k` of the instruction (0 the opcode, 1 and 2 the operands) is not there (R112 steps 2 and 3). -/
  | missingByte (k : Nat)
  /-- A byte in a `reg` role is above 7 (R112 steps 4 and 5). -/
  | badRegister (b : Byte)
  deriving DecidableEq, Repr

/-- Steps 4 and 5 of R112: every `reg` operand is checked, `a` before `b`; the first bad one is reported. -/
def checkIndices (i : Instr) (rest : List Byte) : Except Reject (Instr × List Byte) :=
  match i.regOperands.find? fun b => (regIdx b).isNone with
  | some b => .error (.badRegister b)
  | none => .ok (i, rest)

/-- Decode the instruction at the front of a list of bytes and give back the bytes after it (R86, R112). -/
def decode : List Byte → Except Reject (Instr × List Byte)
  | [] => .error (.missingByte 0)
  | opc :: bytes =>
    match opcodeOf opc with
    | none => .error (.invalidOpcode opc)
    | some o =>
      match operandCount opc, bytes with
      | 0, rest => checkIndices (o.instr 0 0) rest
      | 1, a :: rest => checkIndices (o.instr a 0) rest
      | 1, [] => .error (.missingByte 1)
      | _, a :: b :: rest => checkIndices (o.instr a b) rest
      | _, [_] => .error (.missingByte 2)
      | _, [] => .error (.missingByte 1)

/-- The opcode of an instruction (R88). -/
def Instr.opcode : Instr → Opcode
  | .halt => .halt
  | .ret => .ret
  | .push _ => .push
  | .pop _ => .pop
  | .printRegister _ => .printRegister
  | .call _ => .call
  | .jump _ => .jump
  | .jumpIfEqual _ => .jumpIfEqual
  | .jumpIfNotEqual _ => .jumpIfNotEqual
  | .loadImmediate _ _ => .loadImmediate
  | .add _ _ => .add
  | .multiply _ _ => .multiply
  | .compare _ _ => .compare

/-- The bytes of an instruction, lowest address first (R80, R95). -/
def encode (i : Instr) : List Byte := i.opcode.byte :: i.operands

/-- The bytes of an instruction given as one number with bit 0 the least significant bit of its first byte: byte `k`
is bits `8k+7 .. 8k`, every bit from `nbits` up is 0, and the longest instruction has 3 bytes. -/
def tableBytes (nbits w : Nat) : List Byte :=
  [BitVec.ofNat 8 (w % 2 ^ nbits), BitVec.ofNat 8 (w % 2 ^ nbits / 256), BitVec.ofNat 8 (w % 2 ^ nbits / 65536)]

/-- What the decoder reads from an instruction given as one number, `none` where it refuses. -/
def decodeTableWord (nbits w : Nat) : Option Instr :=
  match decode (tableBytes nbits w) with
  | .ok (i, _) => some i
  | .error _ => none

end Sys2Proof
end

