-- ==== Sys2Proof/Machine/Operands.lean ====
section
/-! DEFINITION. The operand forms: a register index byte, the narrowing and widening of values, the sequential advance
of `pc`, the indirect target, and the two implicit stack modes (30_encoding.md R83 to R85; 20_memory.md R60;
44_control_transfer.md R180). -/

namespace Sys2Proof.Machine

/-- `trunc8(v) = v mod 256` (42_alu.md R140). -/
def trunc8 (v : Nat) : Byte := BitVec.ofNat 8 v

/-- `zext_9(v)`: a zero in bit 8 (00_scope.md R8). -/
def zext9 (v : Byte) : Addr := v.setWidth 9

/-- The register an operand byte names, or `OutOfRangeAccess(reg, b)` (R85; log entry 5). -/
def regOperand (b : Byte) : Except FatalError (Fin 8) :=
  match regIdx b with
  | some r => .ok r
  | none => .error (.outOfRangeAccess (.reg b))

/-- `pc <- pc + n`: the sequential advance by an instruction's length (10_state.md R26; log entry 6). -/
def State.advance (s : State) (n : Nat) : State := s.setPc (s.pc + BitVec.ofNat 9 n)

/-- `pc <- zext_9(x[r])`: an absolute indirect target, not checked in any way (R180). -/
def State.jumpTo (s : State) (r : Fin 8) : State := s.setPc (zext9 (s.reg r))

/-- `SP <- trunc8(SP - 1)`: 8-bit subtraction wraps modulo 256 (R24, R60). -/
def State.decSp (s : State) : State := s.setSp (s.sp - 1#8)

/-- `SP <- trunc8(SP + 1)`: 8-bit addition wraps modulo 256 (R24, R60). -/
def State.incSp (s : State) : State := s.setSp (s.sp + 1#8)

/-- `MemWrite(SP, 1, v)` (R60). -/
def storeTop (v : Byte) (s : State) : Except FatalError State := memWrite (zext9 s.sp) v s

/-- `MemRead(SP, 1)` (R60). -/
def loadTop (s : State) : Except FatalError Byte := memRead (zext9 s.sp) s

/-- The byte CALL stores: the address after it, cut to 8 bits (44_control_transfer.md R170; the spec's decision D8). -/
def returnAddress (s : State) : Byte := trunc8 (s.pc.toNat + 2)

end Sys2Proof.Machine
end

