-- ==== Sys2Proof/Machine/Alu.lean ====
section
/-! DEFINITION. The ALU: the arithmetic operations of 42_alu.md R141 and the instructions ADD, MULTIPLY and COMPARE.
Each instruction is wired to its own operation, so `UnsupportedOperation` has nothing to raise it (R148). -/

namespace Sys2Proof.Machine

/-- `add8(p, q) = (p + q) mod 256` (R141). -/
def add8 (p q : Byte) : Byte := trunc8 (p.toNat + q.toNat)

/-- `mul8(p, q) = (p * q) mod 256` (R141). -/
def mul8 (p q : Byte) : Byte := trunc8 (p.toNat * q.toNat)

/-- ADD a, b: `x[a] <- trunc8(x[a] + x[b])`; `pc <- pc + 3`; no flag is written (R142). -/
def execAdd (a b : Byte) (s : State) : Host.Outcome State Fault Refusal :=
  finish s do
    let ra ← regOperand a
    let rb ← regOperand b
    .ok ((s.setReg ra (add8 (s.reg ra) (s.reg rb))).advance 3)

/-- MULTIPLY a, b: `x[a] <- trunc8(x[a] * x[b])`; `pc <- pc + 3`; no flag is written (R144). -/
def execMultiply (a b : Byte) (s : State) : Host.Outcome State Fault Refusal :=
  finish s do
    let ra ← regOperand a
    let rb ← regOperand b
    .ok ((s.setReg ra (mul8 (s.reg ra) (s.reg rb))).advance 3)

/-- COMPARE a, b: the whole of `FL` is replaced; no register is written; `pc <- pc + 3` (R146). -/
def execCompare (a b : Byte) (s : State) : Host.Outcome State Fault Refusal :=
  finish s do
    let ra ← regOperand a
    let rb ← regOperand b
    .ok ((s.setFl (cmp8 (s.reg ra) (s.reg rb))).advance 3)

end Sys2Proof.Machine
end

