-- ==== Sys2Proof/Machine/Control.lean ====
section
/-! DEFINITION. Control transfer: CALL, RETURN, JUMP, JUMP_IF_EQUAL, JUMP_IF_NOT_EQUAL (44_control_transfer.md R170 to
R181). Every rule writes `pc` itself, once, on every path (R114, R181). -/

namespace Sys2Proof.Machine

/-- CALL a: `SP <- trunc8(SP - 1)`; `MemWrite(SP, 1, trunc8(pc + 2))`; `pc <- zext_9(x[a])` with `x[a]` read after
`SP` was written (R170). -/
def execCall (a : Byte) (s : State) : Host.Outcome State Fault Refusal :=
  finish s do
    let r ← regOperand a
    let s1 := s.decSp
    let s2 ← storeTop (returnAddress s1) s1
    .ok (s2.jumpTo r)

/-- RETURN: `pc <- zext_9(MemRead(SP, 1))`; `SP <- trunc8(SP + 1)` (R172). -/
def execReturn (s : State) : Host.Outcome State Fault Refusal :=
  finish s do
    let v ← loadTop s
    .ok (s.setPc (zext9 v)).incSp

/-- JUMP a: `pc <- zext_9(x[a])` (R174). -/
def execJump (a : Byte) (s : State) : Host.Outcome State Fault Refusal :=
  finish s do
    let r ← regOperand a
    .ok (s.jumpTo r)

/-- JUMP_IF_EQUAL a: `pc <- zext_9(x[a])` if `FL.E = 1`, else `pc <- pc + 2`, once (R176, R181). -/
def execJumpIfEqual (a : Byte) (s : State) : Host.Outcome State Fault Refusal :=
  finish s do
    let r ← regOperand a
    match s.flE with
    | true => .ok (s.jumpTo r)
    | false => .ok (s.advance 2)

/-- JUMP_IF_NOT_EQUAL a: `pc <- zext_9(x[a])` if `FL.E = 0`, else `pc <- pc + 2`, once (R178, R181). -/
def execJumpIfNotEqual (a : Byte) (s : State) : Host.Outcome State Fault Refusal :=
  finish s do
    let r ← regOperand a
    match s.flE with
    | true => .ok (s.advance 2)
    | false => .ok (s.jumpTo r)

end Sys2Proof.Machine
end

