-- ==== Sys2Proof/Machine/DataMovement.lean ====
section
/-! DEFINITION. The data-movement family, LOAD_IMMEDIATE alone (41_data_movement.md R130, R131). -/

namespace Sys2Proof.Machine

/-- LOAD_IMMEDIATE a, v: `x[a] <- v`, the byte used as it is; `pc <- pc + 3` (R131, R84). -/
def execLoadImmediate (a v : Byte) (s : State) : Host.Outcome State Fault Refusal :=
  finish s do
    let r ← regOperand a
    .ok ((s.setReg r v).advance 3)

end Sys2Proof.Machine
end

