-- ==== Sys2Proof/Machine/Stack.lean ====
section
/-! DEFINITION. PUSH and POP (43_stack.md R160 to R163). The sub-steps run in the written order and a later one sees an
earlier one's write, which shows when the operand is register 7 (the spec's decision D9). -/

namespace Sys2Proof.Machine

/-- PUSH a: `SP <- trunc8(SP - 1)`; `MemWrite(SP, 1, x[a])` with the new `SP` and `x[a]` read after it; `pc <- pc + 2`
(R161). -/
def execPush (a : Byte) (s : State) : Host.Outcome State Fault Refusal :=
  finish s do
    let r ← regOperand a
    let s1 := s.decSp
    let s2 ← storeTop (s1.reg r) s1
    .ok (s2.advance 2)

/-- POP a: `x[a] <- MemRead(SP, 1)`; `SP <- trunc8(SP + 1)` with `SP` read after that write; `pc <- pc + 2` (R163). -/
def execPop (a : Byte) (s : State) : Host.Outcome State Fault Refusal :=
  finish s do
    let r ← regOperand a
    let v ← loadTop s
    .ok ((s.setReg r v).incSp.advance 2)

end Sys2Proof.Machine
end

