-- ==== Sys2Proof/Machine/System.lean ====
section
/-! DEFINITION. The system instructions HALT and PRINT_REGISTER (40_cycle_and_system.md R118, R120). -/

namespace Sys2Proof.Machine

/-- HALT: `halted <- 1`; `pc <- pc + 1`, which at address 255 leaves 256 and is no fault (R118). -/
def execHalt (s : State) : Host.Outcome State Fault Refusal :=
  finish s (.ok (s.setHalted.advance 1))

/-- PRINT_REGISTER a: `Emit(x[a])`; `pc <- pc + 2` (R120). -/
def execPrintRegister (a : Byte) (s : State) : Host.Outcome State Fault Refusal :=
  finish s do
    let r ← regOperand a
    .ok ((s.emit (s.reg r)).advance 2)

end Sys2Proof.Machine
end

