-- ==== Sys2Proof/Machine/Dispatch.lean ====
section
/-! DEFINITION. The execute phase: one arm per instruction (40_cycle_and_system.md R113). -/

namespace Sys2Proof.Machine

/-- Run one decoded instruction. -/
def exec (i : Instr) (s : State) : Host.Outcome State Fault Refusal :=
  match i with
  | .halt => Sys2Proof.Machine.execHalt s
  | .ret => Sys2Proof.Machine.execReturn s
  | .push a => Sys2Proof.Machine.execPush a s
  | .pop a => Sys2Proof.Machine.execPop a s
  | .printRegister a => Sys2Proof.Machine.execPrintRegister a s
  | .call a => Sys2Proof.Machine.execCall a s
  | .jump a => Sys2Proof.Machine.execJump a s
  | .jumpIfEqual a => Sys2Proof.Machine.execJumpIfEqual a s
  | .jumpIfNotEqual a => Sys2Proof.Machine.execJumpIfNotEqual a s
  | .loadImmediate a v => Sys2Proof.Machine.execLoadImmediate a v s
  | .add a b => Sys2Proof.Machine.execAdd a b s
  | .multiply a b => Sys2Proof.Machine.execMultiply a b s
  | .compare a b => Sys2Proof.Machine.execCompare a b s

end Sys2Proof.Machine
end

