-- ==== Sys2Proof/Machine/Fetch.lean ====
section
/-! DEFINITION. The fetch and decode phases of a step (40_cycle_and_system.md R111, R112): the bytes from `pc` up, the
decoder over them, and the exception each rejection raises. They read memory and change no state. -/

namespace Sys2Proof.Machine

/-- The bytes `MemRead` gives at `addr`, `addr + 1`, …, at most `n` of them, as far as memory reaches. -/
def bytesFrom : Nat → Addr → State → List Byte
  | 0, _, _ => []
  | n + 1, addr, s =>
    match memRead addr s with
    | .ok b => b :: bytesFrom n (addr + 1#9) s
    | .error _ => []

/-- The exception a rejection by the decoder raises for the instruction at `pc` (R112, R208). -/
def exceptionOf (pc : Addr) : Reject → FatalError
  | .invalidOpcode opc => .invalidOpcode opc
  | .missingByte k => .outOfRangeAccess (.mem (pc + BitVec.ofNat 9 k))
  | .badRegister b => .outOfRangeAccess (.reg b)

/-- Fetch and decode the instruction at `pc`, which has at most 3 bytes (R80, R111, R112). -/
def fetchDecode (s : State) : Except FatalError Instr :=
  match decode (bytesFrom 3 s.pc s) with
  | .ok (i, _) => .ok i
  | .error e => .error (exceptionOf s.pc e)

end Sys2Proof.Machine
end

