-- ==== Sys2Proof/Machine/Step.lean ====
section
/-! DEFINITION. One step of the machine (40_cycle_and_system.md R110 to R113), and how a test places an instruction
where the next step fetches it. -/

namespace Sys2Proof.Machine

/-- One pass of the fetch-decode-execute loop. A terminal state has no step (R110; log entry 1); from a running state
the instruction at `pc` runs, or the exception its fetch or decode phase meets is taken (R111 to R113, R206). -/
def step (s : State) : Host.Outcome State Fault Refusal :=
  match s.status with
  | .halted => .fault .machineHalted
  | .faulted => .fault .machineFaulted
  | .running =>
    match fetchDecode s with
    | .ok i => exec i s
    | .error e => .next (raise e s)

/-- `s` with bytes stored from address `a` up; an address above 255 does not exist and is passed over. -/
def State.placeBytes : State → Nat → List Byte → State
  | s, _, [] => s
  | s, a, b :: bs => (if a < Config.memSize then s.setCell a b else s).placeBytes (a + 1) bs

/-- `s` with the instruction whose bits are `w` stored at `pc`, where `step` fetches (log entry 3). It stands for the
loader; memory is the one thing it changes. -/
def State.withFetchWord (s : State) (nbits w : Nat) : State :=
  s.placeBytes s.pc.toNat (tableBytes nbits w)

end Sys2Proof.Machine
end

