-- ==== Sys2Proof/Safety.lean ====
section
/-! DEFINITION. What a safe run is, in the terms the statements use: the invariant that every step keeps, the states a
run can reach from `Reset(img)`, and the success and failure of a run (10_state.md R24, R25, R29, R33, R34;
60_exceptions.md R202 to R204). -/

namespace Sys2Proof.Machine

/-- The values `FL` can hold: no flag before the first COMPARE, exactly one after it (R29). -/
def flLegal (fl : Byte) : Prop := fl = 0x00#8 ∨ fl = flLess ∨ fl = flGreater ∨ fl = flEqual

/-- A fault record that some situation of R202 or R203 writes: an unassigned byte that stands at `fpc`, the address 256
met by a fetch at 254, 255 or 256, or a register index above 7. `UnsupportedOperation` is never raised (R204). -/
def State.faultLegal (s : State) (f : FaultRecord) : Prop :=
  match f.error with
  | .invalidOpcode opc => f.fpc.toNat ≤ 255 ∧ s.cell f.fpc.toNat = opc ∧ opcodeOf opc = none
  | .unsupportedOperation _ => False
  | .outOfRangeAccess (.mem addr) => addr.toNat = 256 ∧ 254 ≤ f.fpc.toNat ∧ f.fpc.toNat ≤ 256
  | .outOfRangeAccess (.reg index) => 7 < index.toNat ∧ f.fpc.toNat ≤ 254

/-- The invariant of the machine. -/
structure State.Inv (s : State) : Prop where
  /-- Memory is in its canonical form, inside 0..255. -/
  memWf : s.mem.wf = true
  /-- At most one flag is set and no other bit (R29). -/
  flags : flLegal s.fl
  /-- `pc` is at most 256 (R25). -/
  pcBound : s.pc.toNat ≤ 256
  /-- `halted` and `fault` never hold together (R34). -/
  exclusive : s.halted = true → s.fault = none
  /-- A fault record names the instruction `pc` still stands at, and a situation of the spec (R206, R202). -/
  record : ∀ f, s.fault = some f → f.fpc = s.pc ∧ s.faultLegal f

/-- The states a run from `Reset(img)` passes through (40_cycle_and_system.md R115). -/
inductive Reachable (img : List Byte) : State → Prop
  | boot (s : State) (h : Sys2Proof.Machine.boot img = .next s) : Reachable img s
  | step (s t : State) (hs : Reachable img s) (h : Sys2Proof.Machine.step s = .next t) : Reachable img t

/-- The source's success: the run ended by HALT (R115). -/
def State.succeeded (s : State) : Prop := s.halted = true ∧ s.fault = none

/-- The source's failure: the run ended by a fatal exception (R115). -/
def State.failed (s : State) : Prop := s.fault ≠ none

end Sys2Proof.Machine
end

