-- ==== Sys2Proof/Certificates/Slice0/Obligations.lean ====
section
/-! DEFINITION. The statements about SCCA-CORE, for the provers. Each docstring names the rule of the spec it formalises.
"D<n>" is a decision of spec/92_eei_decisions.md, the spec's own choice where its source is silent (log entry 2); a
statement that rests on one has basis 'derived' in OBLIGATIONS.json. -/

open Sys2Proof Sys2Proof.Machine

namespace Sys2Proof.Spec

/-- The operand byte `a` names register `r` (30_encoding.md R85). -/
abbrev names (a : Byte) (r : Fin 8) : Prop := a.toNat = r.val

/-- `s` after `raise e`: the fault record written, nothing else (60_exceptions.md R206). -/
def raised (s : State) (e : FatalError) : State := { s with fault := some { error := e, fpc := s.pc } }

/-- The 13 assigned opcode bytes, ascending (30_encoding.md R89; D1). -/
def assigned : List Byte :=
  [0x01#8, 0x11#8, 0x45#8, 0x46#8, 0x47#8, 0x50#8, 0x54#8, 0x55#8, 0x56#8, 0x82#8, 0xA0#8, 0xA2#8, 0xA7#8]

/-- The registers an instruction writes, row by row of 10_state.md R22. -/
def writes : Instr → Fin 8 → Prop
  | .halt, _ => False
  | .loadImmediate a _, q => names a q
  | .printRegister _, _ => False
  | .add a _, q => names a q
  | .multiply a _, q => names a q
  | .compare _ _, _ => False
  | .push _, q => q = 7
  | .pop a, q => names a q ∨ q = 7
  | .call _, q => q = 7
  | .ret, q => q = 7
  | .jump _, _ => False
  | .jumpIfEqual _, _ => False
  | .jumpIfNotEqual _, _ => False

/-- The registers an instruction reads, row by row of 10_state.md R22; a conditional jump reads its register only when
the branch is taken. -/
def reads : Instr → State → Fin 8 → Prop
  | .halt, _, _ => False
  | .loadImmediate _ _, _, _ => False
  | .printRegister a, _, q => names a q
  | .add a b, _, q => names a q ∨ names b q
  | .multiply a b, _, q => names a q ∨ names b q
  | .compare a b, _, q => names a q ∨ names b q
  | .push a, _, q => q = 7 ∨ names a q
  | .pop _, _, q => q = 7
  | .call a, _, q => q = 7 ∨ names a q
  | .ret, _, q => q = 7
  | .jump a, _, q => names a q
  | .jumpIfEqual a, s, q => s.flE = true ∧ names a q
  | .jumpIfNotEqual a, s, q => s.flE = false ∧ names a q

/-- What an instruction emits: the register PRINT_REGISTER names, and nothing for any other (40_cycle_and_system.md R120,
R121). -/
def emitted : Instr → State → List Byte
  | .printRegister a, s => if h : a.toNat < 8 then [s.reg ⟨a.toNat, h⟩] else []
  | _, _ => []

/-- The address an instruction stores one byte to: the decremented stack pointer of PUSH and CALL, by the functions their
meanings use (20_memory.md R54, R60). -/
def storeAddress : Instr → State → Option Nat
  | .push _, s => some (zext9 s.decSp.sp).toNat
  | .call _, s => some (zext9 s.decSp.sp).toNat
  | _, _ => none

/-- The bytes `bs` stand in memory from `pc` up. -/
def codeAt (s : State) (bs : List Byte) : Prop :=
  s.pc.toNat + bs.length ≤ 256 ∧ ∀ (k : Nat) (h : k < bs.length), s.cell (s.pc.toNat + k) = bs[k]

/-- The instruction of an assigned opcode byte with its operand bytes, by value (30_encoding.md R83, R89; D1). -/
def instructionOf (opc a b : Byte) : Option Instr :=
  if opc = 0x01#8 then some .halt
  else if opc = 0x11#8 then some .ret
  else if opc = 0x45#8 then some (.push a)
  else if opc = 0x46#8 then some (.pop a)
  else if opc = 0x47#8 then some (.printRegister a)
  else if opc = 0x50#8 then some (.call a)
  else if opc = 0x54#8 then some (.jump a)
  else if opc = 0x55#8 then some (.jumpIfEqual a)
  else if opc = 0x56#8 then some (.jumpIfNotEqual a)
  else if opc = 0x82#8 then some (.loadImmediate a b)
  else if opc = 0xA0#8 then some (.add a b)
  else if opc = 0xA2#8 then some (.multiply a b)
  else if opc = 0xA7#8 then some (.compare a b)
  else none

/-- R111 and the six steps of R112, in the spec's order: `opc`, the opcode test, `a`, `b`, the index of `a`, the index of
`b` (which only LOAD_IMMEDIATE, `0x82`, takes as an immediate). -/
def decodeProcedure (s : State) : Except FatalError Instr := do
  let opc ← memRead s.pc s
  if opc ∉ assigned then .error (.invalidOpcode opc)
  let n := (opc >>> 6).toNat
  let a ← if 1 ≤ n then memRead (s.pc + 1#9) s else .ok 0#8
  let b ← if n = 2 then memRead (s.pc + 2#9) s else .ok 0#8
  if 1 ≤ n ∧ 7 < a.toNat then .error (.outOfRangeAccess (.reg a))
  if n = 2 ∧ opc ≠ 0x82#8 ∧ 7 < b.toNat then .error (.outOfRangeAccess (.reg b))
  match instructionOf opc a b with
  | some i => .ok i
  | none => .error (.invalidOpcode opc)

end Sys2Proof.Spec

open Sys2Proof.Spec

/-! ### Reset and memory -/

/-- R40, R243: every component of the state at reset (registers 0..6 and `FL` by D5 and D6). The image is empty, the
model's choice of log entry 3. -/
def Obligations.ResetValues : Prop :=
  State.reset.regs = #v[0x00#8, 0x00#8, 0x00#8, 0x00#8, 0x00#8, 0x00#8, 0x00#8, 0xF4#8] ∧
  State.reset.pc = 0#9 ∧ State.reset.fl = 0x00#8 ∧ State.reset.halted = false ∧ State.reset.fault = none ∧
  (∀ a, State.reset.cell a = 0x00#8) ∧ State.reset.out = [] ∧ State.reset.status = .running

/-- R28: `pc` is 0 after `Reset(img)`, and the first fetch reads the first byte of the image. -/
def Obligations.ExecutionStartsAtAddressZero : Prop :=
  ∀ (img : List Byte) (s : State), boot img = .next s →
    s.pc = 0#9 ∧ s.status = .running ∧ ∀ b bs, img = b :: bs → memRead s.pc s = .ok b

/-- R241: `Reset(img)` of at most 256 bytes, any bytes, leaves the image at 0 and zeros above it; the entry point is 0. -/
def Obligations.BootPlacesTheImage : Prop :=
  ∀ img : List Byte, img.length ≤ 256 →
    ∃ s, boot img = .next s ∧ s.pc = 0#9 ∧
      (∀ (i : Nat) (h : i < img.length), s.cell i = img[i]) ∧
      (∀ i : Nat, img.length ≤ i → i ≤ 255 → s.cell i = 0x00#8)

/-- R242 (D19), R243: a longer image is refused, and `Reset` initialises everything but memory as R40 says. -/
def Obligations.BootRefusesLongImages : Prop :=
  (∀ img : List Byte, 256 < img.length → boot img = .refused .imageTooLong) ∧
  (∀ (img : List Byte) (s : State), boot img = .next s →
    s.regs = State.reset.regs ∧ s.pc = 0#9 ∧ s.fl = 0x00#8 ∧ s.halted = false ∧ s.fault = none ∧ s.out = [])

/-- R51: an address above 255 raises, any other reads `M[addr]`; a read answers a byte and no state. -/
def Obligations.MemReadContract : Prop :=
  ∀ (addr : Addr) (s : State),
    (255 < addr.toNat → memRead addr s = .error (.outOfRangeAccess (.mem addr))) ∧
    (addr.toNat ≤ 255 → memRead addr s = .ok (s.cell addr.toNat))

/-- R52, R61: an address above 255 raises; any other cell written reads back the byte, and nothing else changes.
Canonical memory, the premise, is the model's own form (log entry 4). -/
def Obligations.MemWriteThenRead : Prop :=
  ∀ (addr : Addr) (v : Byte) (s : State), s.mem.wf = true →
    (255 < addr.toNat → memWrite addr v s = .error (.outOfRangeAccess (.mem addr))) ∧
    (addr.toNat ≤ 255 → ∃ t, memWrite addr v s = .ok t ∧ memRead addr t = .ok v ∧
      (∀ b, b ≠ addr → memRead b t = memRead b s) ∧ t = { s with mem := t.mem })

/-- The model's canonical form of memory (log entry 4): memories that read alike at the 256 addresses of R36 are equal
data. -/
def Obligations.CanonicalMemoryIsExtensional : Prop :=
  ∀ m n : Memory, m.wf = true → n.wf = true → (∀ a < 256, m.cell a = n.cell a) → m = n

/-! ### The result of each instruction: `exec` answers the next state the rule gives, whole

`pc + n` is addition of 9 bits (D7); its wrap would show only from a `pc` no run reaches (log entry 6). -/

/-- R118: HALT sets `halted` and advances `pc` by 1; nothing else changes. -/
def Obligations.HaltResult : Prop :=
  ∀ s : State, exec .halt s = .next { s with halted := true, pc := s.pc + 1#9 }

/-- R120: PRINT_REGISTER emits `x[a]` and advances `pc` by 2; nothing else changes. -/
def Obligations.PrintRegisterResult : Prop :=
  ∀ (s : State) (a : Byte) (r : Fin 8), names a r →
    exec (.printRegister a) s = .next { s with out := s.out ++ [s.reg r], pc := s.pc + 2#9 }

/-- R131: LOAD_IMMEDIATE writes the immediate byte as it is (register 7 included) and advances `pc` by 3. -/
def Obligations.LoadImmediateResult : Prop :=
  ∀ (s : State) (a v : Byte) (r : Fin 8), names a r →
    exec (.loadImmediate a v) s = .next { s with regs := s.regs.set r.val v, pc := s.pc + 3#9 }

/-- R142, R140 (D4, wrap modulo 256): ADD writes the sum reduced to 8 bits over its first operand; `pc + 3`. -/
def Obligations.AddResult : Prop :=
  ∀ (s : State) (a b : Byte) (ra rb : Fin 8), names a ra → names b rb →
    exec (.add a b) s =
      .next { s with
        regs := s.regs.set ra.val (BitVec.ofNat 8 (((s.reg ra).toNat + (s.reg rb).toNat) % 256)), pc := s.pc + 3#9 }

/-- R144, R140 (D4, wrap modulo 256): MULTIPLY writes the low byte of the product; `pc + 3`. -/
def Obligations.MultiplyResult : Prop :=
  ∀ (s : State) (a b : Byte) (ra rb : Fin 8), names a ra → names b rb →
    exec (.multiply a b) s =
      .next { s with
        regs := s.regs.set ra.val (BitVec.ofNat 8 (((s.reg ra).toNat * (s.reg rb).toNat) % 256)), pc := s.pc + 3#9 }

/-- R146, R141 (D2 the bit places, D3 unsigned): COMPARE replaces the whole of `FL`; no register is written; `pc + 3`. -/
def Obligations.CompareResult : Prop :=
  ∀ (s : State) (a b : Byte) (ra rb : Fin 8), names a ra → names b rb →
    exec (.compare a b) s =
      .next { s with
        fl := if (s.reg ra).toNat < (s.reg rb).toNat then 0b00000100#8
              else if (s.reg ra).toNat > (s.reg rb).toNat then 0b00000010#8
              else 0b00000001#8,
        pc := s.pc + 3#9 }

/-- R161 (D4 the wrap of `SP`, D9 the order): PUSH decrements `SP`, stores `x[a]` there, reading it after `SP` was written
(so `PUSH R7` stores the decremented `SP`), and advances `pc` by 2. -/
def Obligations.PushResult : Prop :=
  ∀ (s : State) (a : Byte) (r : Fin 8), names a r →
    exec (.push a) s =
      .next { s with
        regs := s.regs.set 7 (s.sp - 1#8),
        mem := s.mem.set (s.sp - 1#8).toNat (if r = 7 then s.sp - 1#8 else s.reg r),
        pc := s.pc + 2#9 }

/-- R163 (D4, D9): POP loads `x[a]` from `M[SP]`, then increments `SP` (so `POP R7` leaves the loaded byte plus 1), and
advances `pc` by 2; memory is unchanged. -/
def Obligations.PopResult : Prop :=
  ∀ (s : State) (a : Byte) (r : Fin 8), names a r →
    exec (.pop a) s =
      .next { s with
        regs := if r = 7 then s.regs.set 7 (s.cell s.sp.toNat + 1#8)
                else (s.regs.set r.val (s.cell s.sp.toNat)).set 7 (s.sp + 1#8),
        pc := s.pc + 2#9 }

/-- R170 (D4, D8 the return address cut to a byte, D9): CALL decrements `SP`, stores the low byte of `pc + 2` there and
jumps to `x[a]`, read after `SP` was written. -/
def Obligations.CallResult : Prop :=
  ∀ (s : State) (a : Byte) (r : Fin 8), names a r →
    exec (.call a) s =
      .next { s with
        regs := s.regs.set 7 (s.sp - 1#8),
        mem := s.mem.set (s.sp - 1#8).toNat (BitVec.ofNat 8 ((s.pc.toNat + 2) % 256)),
        pc := (if r = 7 then s.sp - 1#8 else s.reg r).setWidth 9 }

/-- R172 (D4 the wrap of `SP`): RETURN jumps to the byte at `M[SP]` and increments `SP`; memory is unchanged. -/
def Obligations.ReturnResult : Prop :=
  ∀ s : State,
    exec .ret s =
      .next { s with regs := s.regs.set 7 (s.sp + 1#8), pc := (s.cell s.sp.toNat).setWidth 9 }

/-- R174: JUMP sets `pc` to `x[a]`; nothing else changes. -/
def Obligations.JumpResult : Prop :=
  ∀ (s : State) (a : Byte) (r : Fin 8), names a r →
    exec (.jump a) s = .next { s with pc := (s.reg r).setWidth 9 }

/-- R176, R181 (D2 the place of `E`): JUMP_IF_EQUAL is taken when `FL.E` is 1, else `pc` advances by 2, once. -/
def Obligations.JumpIfEqualResult : Prop :=
  ∀ (s : State) (a : Byte) (r : Fin 8), names a r →
    exec (.jumpIfEqual a) s =
      .next { s with pc := if s.fl[0] = true then (s.reg r).setWidth 9 else s.pc + 2#9 }

/-- R178, R181 (D2 the place of `E`): JUMP_IF_NOT_EQUAL is taken when `FL.E` is 0, else `pc` advances by 2, once. -/
def Obligations.JumpIfNotEqualResult : Prop :=
  ∀ (s : State) (a : Byte) (r : Fin 8), names a r →
    exec (.jumpIfNotEqual a) s =
      .next { s with pc := if s.fl[0] = false then (s.reg r).setWidth 9 else s.pc + 2#9 }

/-! ### Frames and whole-machine rules, over every instruction with every operand -/

/-- R85 (D10) at the level of `exec` (log entry 5): the first register operand above 7, `a` before `b`, raises
`OutOfRangeAccess(reg, b)`, and nothing but the fault record changes. -/
def Obligations.BadRegisterOperandRaises : Prop :=
  ∀ (i : Instr) (s : State) (b : Byte), i.regOperands.find? (fun b => decide (7 < b.toNat)) = some b →
    i.wellFormed = false ∧ exec i s = .next (raised s (.outOfRangeAccess (.reg b)))

/-- R22 whole: a register not listed as written keeps its value, and a register not listed as read has no influence: with
another value in it the instruction does the same, and the value stays unless the register is one it writes. -/
def Obligations.RegistersReadAndWritten : Prop :=
  ∀ (i : Instr) (s t : State), exec i s = .next t → ∀ q : Fin 8,
    (¬ writes i q → t.reg q = s.reg q) ∧
    (¬ reads i s q → ∀ v : Byte,
      (¬ writes i q → exec i (s.setReg q v) = .next (t.setReg q v)) ∧
      (writes i q → exec i (s.setReg q v) = .next t))

/-- R30 (D2): a COMPARE of two registers that exist leaves exactly one flag set; every other instruction, and a COMPARE
that raises, leaves `FL` as it was. -/
def Obligations.FlagsWrittenByCompareOnly : Prop :=
  ∀ (i : Instr) (s t : State), exec i s = .next t →
    ((∃ a b, i = .compare a b) ∧ i.wellFormed = true → t.fl = 0b100#8 ∨ t.fl = 0b010#8 ∨ t.fl = 0b001#8) ∧
    (¬ ((∃ a b, i = .compare a b) ∧ i.wellFormed = true) → t.fl = s.fl)

/-- R32: reset value 0; only HALT writes the halted flag, and only to 1; nothing clears it; when it is 1 no step is
taken. -/
def Obligations.HaltedFlagSetByHaltOnly : Prop :=
  State.reset.halted = false ∧
  (∀ (i : Instr) (s t : State), exec i s = .next t → t.halted = (s.halted || decide (i = .halt))) ∧
  (∀ s t : State, step s = .next t → s.halted = false ∧
    (t.halted = true ↔ s.pc.toNat ≤ 255 ∧ s.cell s.pc.toNat = Opcode.halt.byte)) ∧
  (∀ s : State, s.halted = true → ∀ t, step s ≠ .next t)

/-- R121: PRINT_REGISTER appends the one byte it emits, no other instruction appends any, and what `OUT` holds influences
nothing. -/
def Obligations.OutputIsAppendOnlyAndUnread : Prop :=
  ∀ (i : Instr) (s t : State), exec i s = .next t →
    t.out = s.out ++ emitted i s ∧
    ∀ o : List Byte, exec i { s with out := o } = .next { t with out := o ++ emitted i s }

/-- R54, R160: PUSH and CALL store one byte at the decremented stack pointer, every other byte of memory is unchanged, and
no other instruction changes any. -/
def Obligations.MemoryFrame : Prop :=
  ∀ (i : Instr) (s t : State), exec i s = .next t →
    (∀ x : Nat, storeAddress i s ≠ some x → t.cell x = s.cell x) ∧
    (i.wellFormed = false → ∀ x : Nat, t.cell x = s.cell x)

/-- R113, R206: the execute phase of a well-formed instruction always completes and never touches the fault record. -/
def Obligations.ExecutePhaseRaisesNothing : Prop :=
  ∀ (i : Instr) (s : State), i.wellFormed = true → ∃ t, exec i s = .next t ∧ t.fault = s.fault

/-! ### The step -/

/-- R113: when the bytes at `pc` decode to an instruction, the step of a running state is `exec` of it, with nothing added
around it (R114). -/
def Obligations.StepRunsTheDecodedInstruction : Prop :=
  ∀ (s : State) (bs rest : List Byte) (i : Instr), s.status = .running → codeAt s bs →
    decode bs = .ok (i, rest) → i.wellFormed = true ∧ step s = exec i s

/-- R111, R112, R208 (D1, D10, D11, D15): the step of a running state is the spec's own fetch and decode procedure, written
out, followed by `exec` or by the exception the procedure meets first. -/
def Obligations.StepFollowsTheDecodeProcedure : Prop :=
  ∀ s : State, s.status = .running →
    step s = match decodeProcedure s with
      | .ok i => exec i s
      | .error e => .next (raised s e)

/-- R90, R203 (D1): each of the 243 unassigned bytes raises `InvalidOpcode` when fetched, at address 255 too. -/
def Obligations.UnassignedOpcodeRaises : Prop :=
  ∀ s : State, s.status = .running → s.pc.toNat ≤ 255 → s.cell s.pc.toNat ∉ assigned →
    step s = .next (raised s (.invalidOpcode (s.cell s.pc.toNat)))

/-- R111 (D7): a fetch with `pc` above 255 raises `OutOfRangeAccess(mem, pc)`; it does not wrap. -/
def Obligations.FetchPastMemoryRaises : Prop :=
  ∀ s : State, s.status = .running → 255 < s.pc.toNat →
    step s = .next (raised s (.outOfRangeAccess (.mem s.pc)))

/-- R116: every running state has a next state; no fault and no refusal of the model stops one. -/
def Obligations.RunningStateHasANextState : Prop :=
  ∀ s : State, s.status = .running → ∃ t, step s = .next t

/-- R110 (D24): no step is taken from a terminal state. How the model says so is its own choice, log entry 1. -/
def Obligations.TerminalStateHasNoStep : Prop :=
  (∀ s : State, s.status = .halted → step s = .fault .machineHalted) ∧
  (∀ s : State, s.status = .faulted → step s = .fault .machineFaulted)

/-- R206 (D12, D13): a step that raises writes the fault record, with the `pc` of the faulting instruction, and nothing
else; after it no step is taken. -/
def Obligations.ExceptionsArePrecise : Prop :=
  ∀ s t : State, step s = .next t → t.fault ≠ s.fault →
    ∃ e, t = raised s e ∧ s.fault = none ∧ t.status = .faulted ∧ ∀ u, step t ≠ .next u

/-- R148, R204 (D23): no step records `UnsupportedOperation`. -/
def Obligations.UnsupportedOperationNeverRaised : Prop :=
  ∀ (s t : State) (opc : Byte) (fpc : Addr), step s = .next t →
    t.fault ≠ some { error := .unsupportedOperation opc, fpc := fpc }

/-- R36, R160, R66: a step changes memory only if the byte at `pc` is PUSH or CALL, and then only the cell below the top
of the stack. -/
def Obligations.OnlyPushAndCallWriteMemory : Prop :=
  ∀ (s t : State) (x : Nat), step s = .next t → t.cell x ≠ s.cell x →
    (s.cell s.pc.toNat = 0x45#8 ∨ s.cell s.pc.toNat = 0x50#8) ∧ x = (s.sp - 1#8).toNat

/-- R30: no instruction reads `FL.L`, `FL.G` or any bit of `FL` but `E`: two states that differ in those alone take the same
step, and end alike but for a flags register left alone. -/
def Obligations.OnlyTheEqualFlagIsRead : Prop :=
  ∀ (s : State) (v : Byte), v[0] = s.fl[0] →
    (∀ t, step s = .next t → ∃ w, step { s with fl := v } = .next { t with fl := w } ∧
      (w = t.fl ∨ (w = v ∧ t.fl = s.fl))) ∧
    (∀ f, step s = .fault f → step { s with fl := v } = .fault f)

/-- R64 (D18): the byte a PUSH stores into the cell right after it is the opcode the very next step fetches.
Canonical memory, a premise, is the model's own form (log entry 4). -/
def Obligations.StoreIsSeenByTheNextFetch : Prop :=
  ∀ (s t : State) (r : Fin 8), s.mem.wf = true → step s = .next t → s.cell s.pc.toNat = 0x45#8 →
    names (s.cell (s.pc.toNat + 1)) r → r ≠ 7 → (s.sp - 1#8).toNat = s.pc.toNat + 2 →
    memRead t.pc t = .ok (s.reg r) ∧
    (s.reg r ∉ assigned → step t = .next (raised t (.invalidOpcode (s.reg r)))) ∧
    (s.reg r = 0x01#8 → ∃ u, step t = .next u ∧ u.halted = true)

/-- How the host places an instruction (log entry 3): `withFetchWord` stores it where the next step fetches, and the step
runs what the decoder reads from it. Canonical memory, a premise, is the model's own form (log entry 4). -/
def Obligations.PlacedWordRuns : Prop :=
  ∀ (s : State) (nbits w : Nat) (i : Instr), s.status = .running → s.mem.wf = true → s.pc.toNat ≤ 253 →
    decodeTableWord nbits w = some i →
    step (s.withFetchWord nbits w) = exec i (s.withFetchWord nbits w) ∧
    s.withFetchWord nbits w = { s with mem := (s.withFetchWord nbits w).mem }

/-! ### Encoding -/

/-- R80, R83, R95: decoding the encoding of a well-formed instruction gives it back, with every operand at every value, and
leaves the bytes after it. -/
def Obligations.DecodeOfEncode : Prop :=
  ∀ (i : Instr) (rest : List Byte), i.wellFormed = true → decode (encode i ++ rest) = .ok (i, rest)

/-- R86, R92: an instruction has one encoding: whatever the decoder accepts is well-formed, and the bytes it took are its
encoding. -/
def Obligations.DecodedBytesAreTheEncoding : Prop :=
  ∀ (bs rest : List Byte) (i : Instr), decode bs = .ok (i, rest) → i.wellFormed = true ∧ bs = encode i ++ rest

/-- R87: (a) `opc[7:6]` is the operand count of each instruction; (b) the 13 values are distinct; (c) `0xFF` is not
assigned; (d) the set is closed: a byte is assigned only to one of the 13. -/
def Obligations.OpcodeMapConstraints : Prop :=
  ((∀ o ∈ [Opcode.halt, .ret], o.byte.toNat / 64 = 0) ∧
   (∀ o ∈ [Opcode.printRegister, .push, .pop, .call, .jump, .jumpIfEqual, .jumpIfNotEqual], o.byte.toNat / 64 = 1) ∧
   (∀ o ∈ [Opcode.loadImmediate, .add, .multiply, .compare], o.byte.toNat / 64 = 2)) ∧
  (∀ o p : Opcode, o.byte = p.byte → o = p) ∧
  opcodeOf 0xFF#8 = none ∧
  (Opcode.all.length = 13 ∧ (∀ o : Opcode, o ∈ Opcode.all ∧ opcodeOf o.byte = some o) ∧
   ∀ (b : Byte) (o : Opcode), opcodeOf b = some o → b = o.byte)

/-- R89 (D1): the assigned byte values are the 13 listed. -/
def Obligations.AssignedByteValues : Prop :=
  ∀ b : Byte, (opcodeOf b).isSome = true ↔ b ∈ assigned

/-- R88, R95 (D1): words written out from the spec, one per family and one more, decode to the instruction they stand
for. -/
def Obligations.WrittenWordsDecode : Prop :=
  decode [0b00000001#8] = .ok (.halt, []) ∧
  decode [0b10000010#8, 0x00#8, 0x08#8] = .ok (.loadImmediate 0x00#8 0x08#8, []) ∧
  decode [0b10100010#8, 0x00#8, 0x01#8] = .ok (.multiply 0x00#8 0x01#8, []) ∧
  decode [0b01000111#8, 0x00#8] = .ok (.printRegister 0x00#8, []) ∧
  decode [0b01000110#8, 0x02#8] = .ok (.pop 0x02#8, []) ∧
  decode [0b01010110#8, 0x03#8] = .ok (.jumpIfNotEqual 0x03#8, []) ∧
  decode [0xFF#8] = .error (.invalidOpcode 0xFF#8)

/-! ### Invariants -/

/-- `State.Inv` holds at reset (R40; `FL` at 0x00 is D6, log entry 2; canonical memory is the model's own form, log
entry 4). -/
def Obligations.InvariantAtReset : Prop := State.reset.Inv

/-- R25, R29, R34, R57, R202, R206: every step keeps the invariant: canonical memory, a legal flags register, `pc` at most
256, `halted` and `fault` never together, and a fault record that a situation of R202 or R203 explains. The places of the
flags (D2), the width of `pc` (D7) and what a record holds (D1, D10 to D13, D15, D23) are the spec's choices, log entry
2; canonical memory is the model's own form, log entry 4. -/
def Obligations.InvariantKeptByStep : Prop := ∀ s t : State, s.Inv → step s = .next t → t.Inv

/-- R115, R240: the invariant holds of every state that a run reaches from `Reset(img)`, for every image that `boot`
accepts (D19 for longer ones). Its clauses are those of R25, R29, R34 and R202 to R206, with `FL` at reset D6 (R31), the
places of the flags D2, the width of `pc` D7 and the record D1, D10 to D13, D15, D23 (log entry 2); canonical memory is
the model's own form (log entry 4), and no Reset falls within the run (log entry 9). -/
def Obligations.InvariantOfEveryRun : Prop := ∀ (img : List Byte) (s : State), Reachable img s → s.Inv

/-! ### The source's properties, over two instructions -/

/-- R131 with R120: LOAD_IMMEDIATE r, v then PRINT_REGISTER r emits exactly `v`. -/
def Obligations.LoadThenPrintEmitsTheImmediate : Prop :=
  ∀ (s : State) (a v : Byte) (r : Fin 8), names a r →
    ∃ u t, exec (.loadImmediate a v) s = .next u ∧ exec (.printRegister a) u = .next t ∧ t.out = s.out ++ [v]

/-- R165 (the spec's own derivation from R161 and R163): PUSH then POP moves the value and restores `SP`. -/
def Obligations.PushThenPopRoundTrip : Prop :=
  ∀ (s : State) (a c : Byte) (r q : Fin 8), s.mem.wf = true → names a r → names c q → r ≠ 7 → q ≠ 7 →
    ∃ u t, exec (.push a) s = .next u ∧ exec (.pop c) u = .next t ∧
      t.reg q = s.reg r ∧ t.sp = s.sp ∧ t.cell (s.sp - 1#8).toNat = s.reg r ∧
      ∀ p : Fin 8, p ≠ q → t.reg p = s.reg p

/-- R173 (the spec's own derivation from R170 and R172): CALL at an address up to 253, then any code that leaves `SP` and
`M[SP]` as the CALL left them, then RETURN: execution resumes at `p + 2` with `SP` as before the CALL. -/
def Obligations.CallThenReturnResumes : Prop :=
  ∀ (s : State) (a : Byte) (r : Fin 8), s.mem.wf = true → names a r → r ≠ 7 → s.pc.toNat ≤ 253 →
    ∃ u, exec (.call a) s = .next u ∧ u.pc = (s.reg r).setWidth 9 ∧
      ∀ w : State, w.sp = u.sp → w.cell u.sp.toNat = u.cell u.sp.toNat →
        ∃ t, exec .ret w = .next t ∧ t.pc.toNat = s.pc.toNat + 2 ∧ t.sp = s.sp

/-- R179 (the spec's own derivation from R146, R176 and R178): after COMPARE, JUMP_IF_EQUAL is taken exactly when the
operands were equal and JUMP_IF_NOT_EQUAL exactly when they were not. -/
def Obligations.CompareThenBranch : Prop :=
  ∀ (s : State) (a b c : Byte) (ra rb rc : Fin 8), names a ra → names b rb → names c rc →
    ∃ u t t', exec (.compare a b) s = .next u ∧ exec (.jumpIfEqual c) u = .next t ∧
      exec (.jumpIfNotEqual c) u = .next t' ∧
      (s.reg ra = s.reg rb → t.pc = (s.reg rc).setWidth 9 ∧ t'.pc = s.pc + 5#9) ∧
      (s.reg ra ≠ s.reg rb → t.pc = s.pc + 5#9 ∧ t'.pc = (s.reg rc).setWidth 9)

/-- R201 (D14): the numeric codes of the three exceptions. -/
def Obligations.ExceptionCodes : Prop :=
  ∀ (b : Byte) (x : BadIndex),
    (FatalError.invalidOpcode b).code = 1 ∧ (FatalError.unsupportedOperation b).code = 2 ∧
    (FatalError.outOfRangeAccess x).code = 3
end

