-- ==== Sys2Proof/Laws/Memory.lean ====
section
/-! SUPPORT. The laws of memory: a read after a write, every memory operation keeps the canonical form, and what an image
leaves in memory (20_memory.md R51, R52, R61; 70_reset_and_hazards.md R241). -/

namespace Sys2Proof.Machine

/-- Below the first address a canonical memory may list, every cell holds the fill byte. -/
theorem Memory.cell_below {lo : Nat} {m : Memory} (h : Memory.wfFrom lo m = true) {a : Nat} (ha : a < lo) :
    Memory.cell m a = Config.memFill := by
  induction m generalizing lo with
  | nil => rfl
  | cons c m ih =>
    obtain ⟨k, w⟩ := c
    simp only [Memory.wfFrom, Bool.and_eq_true, decide_eq_true_eq] at h
    have hk : k ≠ a := by omega
    simpa [Memory.cell, hk] using ih h.2 (by omega)

/-- A canonical memory stays canonical from a lower start. -/
theorem Memory.wfFrom_mono {lo lo' : Nat} {m : Memory} (hlo : lo' ≤ lo) (h : Memory.wfFrom lo m = true) :
    Memory.wfFrom lo' m = true := by
  cases m with
  | nil => rfl
  | cons c m =>
    simp only [Memory.wfFrom, Bool.and_eq_true, decide_eq_true_eq] at h ⊢
    exact ⟨⟨⟨by omega, h.1.1.2⟩, h.1.2⟩, h.2⟩

theorem Memory.cell_cons {lo : Nat} {m : Memory} (h : Memory.wfFrom lo m = true) {a : Nat} (ha : a < lo) (v : Byte)
    (b : Nat) : Memory.cell (Memory.cons a v m) b = if a = b then v else Memory.cell m b := by
  by_cases hv : v = Config.memFill
  · by_cases hb : a = b
    · subst hb; simp [Memory.cons, hv, Memory.cell_below h ha]
    · simp [Memory.cons, hv, hb]
  · simp [Memory.cons, hv, Memory.cell]

theorem Memory.wfFrom_cons {lo a : Nat} {m : Memory} (h : Memory.wfFrom (a + 1) m = true) (hlo : lo ≤ a)
    (ha : a < Config.memSize) (v : Byte) : Memory.wfFrom lo (Memory.cons a v m) = true := by
  by_cases hv : v = Config.memFill
  · simpa [Memory.cons, hv] using Memory.wfFrom_mono (by omega) h
  · simp [Memory.cons, hv, Memory.wfFrom, hlo, ha, h]

theorem Memory.wfFrom_set {lo a : Nat} {m : Memory} (h : Memory.wfFrom lo m = true) (hlo : lo ≤ a)
    (ha : a < Config.memSize) (v : Byte) : Memory.wfFrom lo (Memory.set m a v) = true := by
  induction m generalizing lo with
  | nil => exact Memory.wfFrom_cons rfl hlo ha v
  | cons c m ih =>
    obtain ⟨k, w⟩ := c
    have h0 := h
    simp only [Memory.wfFrom, Bool.and_eq_true, decide_eq_true_eq] at h
    unfold Memory.set
    split
    · refine Memory.wfFrom_cons ?_ hlo ha v
      simp only [Memory.wfFrom, Bool.and_eq_true, decide_eq_true_eq]
      exact ⟨⟨⟨by omega, h.1.1.2⟩, h.1.2⟩, h.2⟩
    · split
      · rename_i hk; subst hk
        exact Memory.wfFrom_cons h.2 hlo ha v
      · simp only [Memory.wfFrom, Bool.and_eq_true, decide_eq_true_eq]
        exact ⟨h.1, ih h.2 (by omega)⟩

/-- Writing a cell inside memory keeps the canonical form. -/
theorem Memory.wf_set {m : Memory} (h : m.wf = true) {a : Nat} (ha : a < Config.memSize) (v : Byte) :
    (m.set a v).wf = true := Memory.wfFrom_set h (Nat.zero_le a) ha v

theorem Memory.cell_setFrom {lo : Nat} {m : Memory} (h : Memory.wfFrom lo m = true) (a : Nat) (v : Byte) (b : Nat) :
    Memory.cell (Memory.set m a v) b = if a = b then v else Memory.cell m b := by
  induction m generalizing lo with
  | nil =>
    exact Memory.cell_cons (lo := a + 1) rfl (Nat.lt_succ_self a) v b
  | cons c m ih =>
    obtain ⟨k, w⟩ := c
    simp only [Memory.wfFrom, Bool.and_eq_true, decide_eq_true_eq] at h
    unfold Memory.set
    split
    · rename_i hk
      refine Memory.cell_cons (lo := k) ?_ hk v b
      simp only [Memory.wfFrom, Bool.and_eq_true, decide_eq_true_eq]
      exact ⟨⟨⟨le_refl k, h.1.1.2⟩, h.1.2⟩, h.2⟩
    · split
      · rename_i hk; subst hk
        rw [Memory.cell_cons h.2 (Nat.lt_succ_self a)]
        by_cases hb : a = b <;> simp [Memory.cell, hb]
      · rename_i hk
        by_cases hb : k = b
        · subst hb; simp [Memory.cell, hk]
        · simp [Memory.cell, hb, ih h.2]

/-- A read after a write: the byte written at that address, the old byte at every other (20_memory.md R52, R61). -/
theorem Memory.cell_set {m : Memory} (h : m.wf = true) (a : Nat) (v : Byte) (b : Nat) :
    (m.set a v).cell b = if a = b then v else m.cell b := Memory.cell_setFrom h a v b

/-- A write leaves every other cell alone, whatever form the list has. -/
theorem Memory.cell_set_ne (m : Memory) {a b : Nat} (h : a ≠ b) (v : Byte) : (m.set a v).cell b = m.cell b := by
  have hcons : ∀ n : Memory, Memory.cell (Memory.cons a v n) b = Memory.cell n b := by
    intro n
    unfold Memory.cons
    split <;> simp [Memory.cell, h]
  induction m with
  | nil => exact hcons []
  | cons c m ih =>
    obtain ⟨k, w⟩ := c
    unfold Memory.set
    split
    · exact hcons _
    · split
      · rename_i hk; subst hk
        simp [hcons, Memory.cell, h]
      · simp [Memory.cell, ih]

theorem Memory.wfFrom_ofImage (a : Nat) (bs : List Byte) (h : a + bs.length ≤ Config.memSize) :
    Memory.wfFrom a (Memory.ofImage a bs) = true := by
  induction bs generalizing a with
  | nil => rfl
  | cons b bs ih =>
    simp only [List.length_cons] at h
    exact Memory.wfFrom_cons (ih (a + 1) (by omega)) (le_refl a) (by omega) b

/-- The empty memory, and with it the memory of `State.reset`, is canonical. -/
theorem Memory.wf_nil : Memory.wf [] = true := rfl

/-- An image that fits is placed in canonical form. -/
theorem Memory.wf_ofImage (bs : List Byte) (h : bs.length ≤ Config.imgMax) :
    (Memory.ofImage Config.imgBase bs).wf = true :=
  Memory.wfFrom_ofImage 0 bs (by simpa [Config.memSize, Config.imgMax] using h)

theorem Memory.reset_wf : State.reset.mem.wf = true := rfl

end Sys2Proof.Machine
end

