-- ==== Sys2Proof/Laws/State.lean ====
section
/-! SUPPORT. One lemma per field per update of the state, each true by unfolding, so that no later proof unfolds a record
update; then the same for the accessors `reg`, `cell`, `flE` and `sp`. -/

namespace Sys2Proof.Machine

/-! ### setReg -/

@[simp] theorem setReg_regs (s : State) (r : Fin 8) (v : Byte) : (s.setReg r v).regs = s.regs.set r.val v := rfl
@[simp] theorem setReg_pc (s : State) (r : Fin 8) (v : Byte) : (s.setReg r v).pc = s.pc := rfl
@[simp] theorem setReg_fl (s : State) (r : Fin 8) (v : Byte) : (s.setReg r v).fl = s.fl := rfl
@[simp] theorem setReg_halted (s : State) (r : Fin 8) (v : Byte) : (s.setReg r v).halted = s.halted := rfl
@[simp] theorem setReg_fault (s : State) (r : Fin 8) (v : Byte) : (s.setReg r v).fault = s.fault := rfl
@[simp] theorem setReg_mem (s : State) (r : Fin 8) (v : Byte) : (s.setReg r v).mem = s.mem := rfl
@[simp] theorem setReg_out (s : State) (r : Fin 8) (v : Byte) : (s.setReg r v).out = s.out := rfl
@[simp] theorem setReg_cell (s : State) (r : Fin 8) (v : Byte) (x : Nat) : (s.setReg r v).cell x = s.cell x := rfl
@[simp] theorem setReg_flE (s : State) (r : Fin 8) (v : Byte) : (s.setReg r v).flE = s.flE := rfl

/-! ### setSp -/

@[simp] theorem setSp_regs (s : State) (v : Byte) : (s.setSp v).regs = s.regs.set 7 v := rfl
@[simp] theorem setSp_pc (s : State) (v : Byte) : (s.setSp v).pc = s.pc := rfl
@[simp] theorem setSp_fl (s : State) (v : Byte) : (s.setSp v).fl = s.fl := rfl
@[simp] theorem setSp_halted (s : State) (v : Byte) : (s.setSp v).halted = s.halted := rfl
@[simp] theorem setSp_fault (s : State) (v : Byte) : (s.setSp v).fault = s.fault := rfl
@[simp] theorem setSp_mem (s : State) (v : Byte) : (s.setSp v).mem = s.mem := rfl
@[simp] theorem setSp_out (s : State) (v : Byte) : (s.setSp v).out = s.out := rfl
@[simp] theorem setSp_cell (s : State) (v : Byte) (x : Nat) : (s.setSp v).cell x = s.cell x := rfl
@[simp] theorem setSp_flE (s : State) (v : Byte) : (s.setSp v).flE = s.flE := rfl

/-! ### setPc -/

@[simp] theorem setPc_regs (s : State) (p : Addr) : (s.setPc p).regs = s.regs := rfl
@[simp] theorem setPc_pc (s : State) (p : Addr) : (s.setPc p).pc = p := rfl
@[simp] theorem setPc_fl (s : State) (p : Addr) : (s.setPc p).fl = s.fl := rfl
@[simp] theorem setPc_halted (s : State) (p : Addr) : (s.setPc p).halted = s.halted := rfl
@[simp] theorem setPc_fault (s : State) (p : Addr) : (s.setPc p).fault = s.fault := rfl
@[simp] theorem setPc_mem (s : State) (p : Addr) : (s.setPc p).mem = s.mem := rfl
@[simp] theorem setPc_out (s : State) (p : Addr) : (s.setPc p).out = s.out := rfl
@[simp] theorem setPc_reg (s : State) (p : Addr) (q : Fin 8) : (s.setPc p).reg q = s.reg q := rfl
@[simp] theorem setPc_sp (s : State) (p : Addr) : (s.setPc p).sp = s.sp := rfl
@[simp] theorem setPc_cell (s : State) (p : Addr) (x : Nat) : (s.setPc p).cell x = s.cell x := rfl
@[simp] theorem setPc_flE (s : State) (p : Addr) : (s.setPc p).flE = s.flE := rfl

/-! ### setFl -/

@[simp] theorem setFl_regs (s : State) (v : Byte) : (s.setFl v).regs = s.regs := rfl
@[simp] theorem setFl_pc (s : State) (v : Byte) : (s.setFl v).pc = s.pc := rfl
@[simp] theorem setFl_fl (s : State) (v : Byte) : (s.setFl v).fl = v := rfl
@[simp] theorem setFl_halted (s : State) (v : Byte) : (s.setFl v).halted = s.halted := rfl
@[simp] theorem setFl_fault (s : State) (v : Byte) : (s.setFl v).fault = s.fault := rfl
@[simp] theorem setFl_mem (s : State) (v : Byte) : (s.setFl v).mem = s.mem := rfl
@[simp] theorem setFl_out (s : State) (v : Byte) : (s.setFl v).out = s.out := rfl
@[simp] theorem setFl_reg (s : State) (v : Byte) (q : Fin 8) : (s.setFl v).reg q = s.reg q := rfl
@[simp] theorem setFl_sp (s : State) (v : Byte) : (s.setFl v).sp = s.sp := rfl
@[simp] theorem setFl_cell (s : State) (v : Byte) (x : Nat) : (s.setFl v).cell x = s.cell x := rfl

/-! ### setHalted -/

@[simp] theorem setHalted_regs (s : State) : (s.setHalted).regs = s.regs := rfl
@[simp] theorem setHalted_pc (s : State) : (s.setHalted).pc = s.pc := rfl
@[simp] theorem setHalted_fl (s : State) : (s.setHalted).fl = s.fl := rfl
@[simp] theorem setHalted_halted (s : State) : (s.setHalted).halted = true := rfl
@[simp] theorem setHalted_fault (s : State) : (s.setHalted).fault = s.fault := rfl
@[simp] theorem setHalted_mem (s : State) : (s.setHalted).mem = s.mem := rfl
@[simp] theorem setHalted_out (s : State) : (s.setHalted).out = s.out := rfl
@[simp] theorem setHalted_reg (s : State) (q : Fin 8) : (s.setHalted).reg q = s.reg q := rfl
@[simp] theorem setHalted_sp (s : State) : (s.setHalted).sp = s.sp := rfl
@[simp] theorem setHalted_cell (s : State) (x : Nat) : (s.setHalted).cell x = s.cell x := rfl
@[simp] theorem setHalted_flE (s : State) : (s.setHalted).flE = s.flE := rfl

/-! ### setFault -/

@[simp] theorem setFault_regs (s : State) (f : FaultRecord) : (s.setFault f).regs = s.regs := rfl
@[simp] theorem setFault_pc (s : State) (f : FaultRecord) : (s.setFault f).pc = s.pc := rfl
@[simp] theorem setFault_fl (s : State) (f : FaultRecord) : (s.setFault f).fl = s.fl := rfl
@[simp] theorem setFault_halted (s : State) (f : FaultRecord) : (s.setFault f).halted = s.halted := rfl
@[simp] theorem setFault_fault (s : State) (f : FaultRecord) : (s.setFault f).fault = some f := rfl
@[simp] theorem setFault_mem (s : State) (f : FaultRecord) : (s.setFault f).mem = s.mem := rfl
@[simp] theorem setFault_out (s : State) (f : FaultRecord) : (s.setFault f).out = s.out := rfl
@[simp] theorem setFault_reg (s : State) (f : FaultRecord) (q : Fin 8) : (s.setFault f).reg q = s.reg q := rfl
@[simp] theorem setFault_sp (s : State) (f : FaultRecord) : (s.setFault f).sp = s.sp := rfl
@[simp] theorem setFault_cell (s : State) (f : FaultRecord) (x : Nat) : (s.setFault f).cell x = s.cell x := rfl
@[simp] theorem setFault_flE (s : State) (f : FaultRecord) : (s.setFault f).flE = s.flE := rfl

/-! ### setCell -/

@[simp] theorem setCell_regs (s : State) (a : Nat) (v : Byte) : (s.setCell a v).regs = s.regs := rfl
@[simp] theorem setCell_pc (s : State) (a : Nat) (v : Byte) : (s.setCell a v).pc = s.pc := rfl
@[simp] theorem setCell_fl (s : State) (a : Nat) (v : Byte) : (s.setCell a v).fl = s.fl := rfl
@[simp] theorem setCell_halted (s : State) (a : Nat) (v : Byte) : (s.setCell a v).halted = s.halted := rfl
@[simp] theorem setCell_fault (s : State) (a : Nat) (v : Byte) : (s.setCell a v).fault = s.fault := rfl
@[simp] theorem setCell_mem (s : State) (a : Nat) (v : Byte) : (s.setCell a v).mem = s.mem.set a v := rfl
@[simp] theorem setCell_out (s : State) (a : Nat) (v : Byte) : (s.setCell a v).out = s.out := rfl
@[simp] theorem setCell_reg (s : State) (a : Nat) (v : Byte) (q : Fin 8) : (s.setCell a v).reg q = s.reg q := rfl
@[simp] theorem setCell_sp (s : State) (a : Nat) (v : Byte) : (s.setCell a v).sp = s.sp := rfl
@[simp] theorem setCell_flE (s : State) (a : Nat) (v : Byte) : (s.setCell a v).flE = s.flE := rfl

/-! ### emit -/

@[simp] theorem emit_regs (s : State) (v : Byte) : (s.emit v).regs = s.regs := rfl
@[simp] theorem emit_pc (s : State) (v : Byte) : (s.emit v).pc = s.pc := rfl
@[simp] theorem emit_fl (s : State) (v : Byte) : (s.emit v).fl = s.fl := rfl
@[simp] theorem emit_halted (s : State) (v : Byte) : (s.emit v).halted = s.halted := rfl
@[simp] theorem emit_fault (s : State) (v : Byte) : (s.emit v).fault = s.fault := rfl
@[simp] theorem emit_mem (s : State) (v : Byte) : (s.emit v).mem = s.mem := rfl
@[simp] theorem emit_out (s : State) (v : Byte) : (s.emit v).out = s.out ++ [v] := rfl
@[simp] theorem emit_reg (s : State) (v : Byte) (q : Fin 8) : (s.emit v).reg q = s.reg q := rfl
@[simp] theorem emit_sp (s : State) (v : Byte) : (s.emit v).sp = s.sp := rfl
@[simp] theorem emit_cell (s : State) (v : Byte) (x : Nat) : (s.emit v).cell x = s.cell x := rfl
@[simp] theorem emit_flE (s : State) (v : Byte) : (s.emit v).flE = s.flE := rfl

/-! ### advance -/

@[simp] theorem advance_regs (s : State) (n : Nat) : (s.advance n).regs = s.regs := rfl
@[simp] theorem advance_pc (s : State) (n : Nat) : (s.advance n).pc = s.pc + BitVec.ofNat 9 n := rfl
@[simp] theorem advance_fl (s : State) (n : Nat) : (s.advance n).fl = s.fl := rfl
@[simp] theorem advance_halted (s : State) (n : Nat) : (s.advance n).halted = s.halted := rfl
@[simp] theorem advance_fault (s : State) (n : Nat) : (s.advance n).fault = s.fault := rfl
@[simp] theorem advance_mem (s : State) (n : Nat) : (s.advance n).mem = s.mem := rfl
@[simp] theorem advance_out (s : State) (n : Nat) : (s.advance n).out = s.out := rfl
@[simp] theorem advance_reg (s : State) (n : Nat) (q : Fin 8) : (s.advance n).reg q = s.reg q := rfl
@[simp] theorem advance_sp (s : State) (n : Nat) : (s.advance n).sp = s.sp := rfl
@[simp] theorem advance_cell (s : State) (n : Nat) (x : Nat) : (s.advance n).cell x = s.cell x := rfl
@[simp] theorem advance_flE (s : State) (n : Nat) : (s.advance n).flE = s.flE := rfl

/-! ### jumpTo -/

@[simp] theorem jumpTo_regs (s : State) (r : Fin 8) : (s.jumpTo r).regs = s.regs := rfl
@[simp] theorem jumpTo_pc (s : State) (r : Fin 8) : (s.jumpTo r).pc = zext9 (s.reg r) := rfl
@[simp] theorem jumpTo_fl (s : State) (r : Fin 8) : (s.jumpTo r).fl = s.fl := rfl
@[simp] theorem jumpTo_halted (s : State) (r : Fin 8) : (s.jumpTo r).halted = s.halted := rfl
@[simp] theorem jumpTo_fault (s : State) (r : Fin 8) : (s.jumpTo r).fault = s.fault := rfl
@[simp] theorem jumpTo_mem (s : State) (r : Fin 8) : (s.jumpTo r).mem = s.mem := rfl
@[simp] theorem jumpTo_out (s : State) (r : Fin 8) : (s.jumpTo r).out = s.out := rfl
@[simp] theorem jumpTo_reg (s : State) (r : Fin 8) (q : Fin 8) : (s.jumpTo r).reg q = s.reg q := rfl
@[simp] theorem jumpTo_sp (s : State) (r : Fin 8) : (s.jumpTo r).sp = s.sp := rfl
@[simp] theorem jumpTo_cell (s : State) (r : Fin 8) (x : Nat) : (s.jumpTo r).cell x = s.cell x := rfl
@[simp] theorem jumpTo_flE (s : State) (r : Fin 8) : (s.jumpTo r).flE = s.flE := rfl

/-! ### decSp -/

@[simp] theorem decSp_regs (s : State) : (s.decSp).regs = s.regs.set 7 (s.sp - 1#8) := rfl
@[simp] theorem decSp_pc (s : State) : (s.decSp).pc = s.pc := rfl
@[simp] theorem decSp_fl (s : State) : (s.decSp).fl = s.fl := rfl
@[simp] theorem decSp_halted (s : State) : (s.decSp).halted = s.halted := rfl
@[simp] theorem decSp_fault (s : State) : (s.decSp).fault = s.fault := rfl
@[simp] theorem decSp_mem (s : State) : (s.decSp).mem = s.mem := rfl
@[simp] theorem decSp_out (s : State) : (s.decSp).out = s.out := rfl
@[simp] theorem decSp_cell (s : State) (x : Nat) : (s.decSp).cell x = s.cell x := rfl
@[simp] theorem decSp_flE (s : State) : (s.decSp).flE = s.flE := rfl

/-! ### incSp -/

@[simp] theorem incSp_regs (s : State) : (s.incSp).regs = s.regs.set 7 (s.sp + 1#8) := rfl
@[simp] theorem incSp_pc (s : State) : (s.incSp).pc = s.pc := rfl
@[simp] theorem incSp_fl (s : State) : (s.incSp).fl = s.fl := rfl
@[simp] theorem incSp_halted (s : State) : (s.incSp).halted = s.halted := rfl
@[simp] theorem incSp_fault (s : State) : (s.incSp).fault = s.fault := rfl
@[simp] theorem incSp_mem (s : State) : (s.incSp).mem = s.mem := rfl
@[simp] theorem incSp_out (s : State) : (s.incSp).out = s.out := rfl
@[simp] theorem incSp_cell (s : State) (x : Nat) : (s.incSp).cell x = s.cell x := rfl
@[simp] theorem incSp_flE (s : State) : (s.incSp).flE = s.flE := rfl

/-! ### Registers: a write is read back, and two indices never name the same storage (10_state.md R20) -/

theorem setReg_reg (s : State) (r q : Fin 8) (v : Byte) :
    (s.setReg r v).reg q = if q = r then v else s.reg q := by
  by_cases h : q = r
  · subst h; simp [State.reg]
  · have : r.val ≠ q.val := fun e => h (Fin.ext e.symm)
    simp [State.reg, h, Vector.getElem_set_ne _ _ this]

@[simp] theorem setReg_reg_self (s : State) (r : Fin 8) (v : Byte) : (s.setReg r v).reg r = v := by
  simp [setReg_reg]

theorem setReg_reg_ne (s : State) {r q : Fin 8} (v : Byte) (h : q ≠ r) : (s.setReg r v).reg q = s.reg q := by
  simp [setReg_reg, h]

@[simp] theorem setSp_sp (s : State) (v : Byte) : (s.setSp v).sp = v := setReg_reg_self s spIndex v

theorem setSp_reg (s : State) (q : Fin 8) (v : Byte) : (s.setSp v).reg q = if q = 7 then v else s.reg q :=
  setReg_reg s 7 q v

@[simp] theorem decSp_sp (s : State) : s.decSp.sp = s.sp - 1#8 := setSp_sp s _

@[simp] theorem incSp_sp (s : State) : s.incSp.sp = s.sp + 1#8 := setSp_sp s _

theorem decSp_reg (s : State) (q : Fin 8) : s.decSp.reg q = if q = 7 then s.sp - 1#8 else s.reg q := setSp_reg s q _

theorem incSp_reg (s : State) (q : Fin 8) : s.incSp.reg q = if q = 7 then s.sp + 1#8 else s.reg q := setSp_reg s q _

/-! ### The status (10_state.md R34) -/

theorem status_running {s : State} : s.status = .running ↔ s.halted = false ∧ s.fault = none := by
  cases hh : s.halted <;> cases hf : s.fault <;> simp [State.status, hh, hf]

theorem status_halted {s : State} : s.status = .halted ↔ s.halted = true := by
  cases hh : s.halted <;> cases hf : s.fault <;> simp [State.status, hh, hf]

theorem status_faulted {s : State} : s.status = .faulted ↔ s.halted = false ∧ s.fault ≠ none := by
  cases hh : s.halted <;> cases hf : s.fault <;> simp [State.status, hh, hf]

end Sys2Proof.Machine
end

