-- ==== Sys2Proof/Laws/Ops.lean ====
section
/-! SUPPORT. For each shared operation, one lemma that says everything it can do: the access primitives, the register
operand, the implicit stack accesses, taking an exception and ending an execute phase. -/

namespace Sys2Proof.Machine

/-! ### The access primitives (20_memory.md R51, R52, R53) -/

theorem memRead_eq (addr : Addr) (s : State) :
    memRead addr s = if addr.toNat ≤ 255 then .ok (s.cell addr.toNat) else .error (.outOfRangeAccess (.mem addr)) := by
  simp only [memRead, Config.memSize, Nat.lt_succ_iff]

theorem memRead_ok_iff {addr : Addr} {s : State} {v : Byte} :
    memRead addr s = .ok v ↔ addr.toNat ≤ 255 ∧ s.cell addr.toNat = v := by
  rw [memRead_eq]; split <;> simp_all

theorem memRead_error_iff {addr : Addr} {s : State} {e : FatalError} :
    memRead addr s = .error e ↔ 255 < addr.toNat ∧ e = .outOfRangeAccess (.mem addr) := by
  rw [memRead_eq]; split <;> simp_all [eq_comm]

theorem memWrite_ok_iff {addr : Addr} {v : Byte} {s t : State} :
    memWrite addr v s = .ok t ↔ addr.toNat ≤ 255 ∧ t = s.setCell addr.toNat v := by
  by_cases h : addr.toNat < 256
  · simp [memWrite, Config.memSize, h, eq_comm, Nat.lt_succ_iff.1 h]
  · simp [memWrite, Config.memSize, h]; omega

@[simp] theorem zext9_toNat (v : Byte) : (zext9 v).toNat = v.toNat := by
  have := v.isLt
  simp [zext9]; omega

theorem trunc8_toNat (v : Nat) : (trunc8 v).toNat = v % 256 := by simp [trunc8]

/-- A store at the top of the stack never leaves memory (R53). -/
@[simp] theorem storeTop_eq (v : Byte) (s : State) : storeTop v s = .ok (s.setCell s.sp.toNat v) := by
  have := s.sp.isLt
  simp [storeTop, memWrite, Config.memSize]; omega

/-- A load from the top of the stack never leaves memory (R53). -/
@[simp] theorem loadTop_eq (s : State) : loadTop s = .ok (s.cell s.sp.toNat) := by
  have := s.sp.isLt
  simp [loadTop, memRead, Config.memSize]; omega

theorem setCell_cell {s : State} (h : s.mem.wf = true) (a : Nat) (v : Byte) (b : Nat) :
    (s.setCell a v).cell b = if a = b then v else s.cell b := Memory.cell_set h a v b

/-! ### Register operands (30_encoding.md R85) -/

theorem regIdx_some {b : Byte} {r : Fin 8} : regIdx b = some r ↔ b.toNat = r.val := by
  unfold regIdx
  split
  · simp [Fin.ext_iff]
  · have := r.isLt
    simp; omega

theorem regIdx_none {b : Byte} : regIdx b = none ↔ 7 < b.toNat := by
  unfold regIdx
  split <;> simp <;> omega

theorem regOperand_of_names {b : Byte} {r : Fin 8} (h : b.toNat = r.val) : regOperand b = .ok r := by
  simp [regOperand, regIdx_some.2 h]

theorem regOperand_of_gt {b : Byte} (h : 7 < b.toNat) : regOperand b = .error (.outOfRangeAccess (.reg b)) := by
  simp [regOperand, regIdx_none.2 h]

/-- A byte names a register or is out of range, and `regOperand` tells the two apart. -/
theorem regOperand_cases (b : Byte) :
    (∃ r : Fin 8, b.toNat = r.val ∧ regOperand b = .ok r) ∨
    (7 < b.toNat ∧ regOperand b = .error (.outOfRangeAccess (.reg b))) := by
  by_cases h : 7 < b.toNat
  · exact .inr ⟨h, regOperand_of_gt h⟩
  · exact .inl ⟨⟨b.toNat, by omega⟩, rfl, regOperand_of_names rfl⟩

/-! ### Exceptions and the end of a step (60_exceptions.md R206) -/

theorem raise_eq (e : FatalError) (s : State) : raise e s = { s with fault := some { error := e, fpc := s.pc } } := rfl

@[simp] theorem finish_ok (s t : State) : finish s (.ok t) = .next t := rfl

@[simp] theorem finish_error (s : State) (e : FatalError) : finish s (.error e) = .next (raise e s) := rfl

/-- An execute phase always ends in a next state: its writes whole, or the exception in the state before the step. -/
theorem finish_cases {s t : State} {r : Except FatalError State} (h : finish s r = .next t) :
    r = .ok t ∨ ∃ e, r = .error e ∧ t = raise e s := by
  cases r with
  | ok u => simp at h; exact .inl (by rw [h])
  | error e => simp at h; exact .inr ⟨e, rfl, h.symm⟩

end Sys2Proof.Machine
end

