-- ==== Sys2Proof/Laws/Decode.lean ====
section
/-! SUPPORT. The small laws of the opcode map and of the register check of the decode phase (30_encoding.md R85, R88;
40_cycle_and_system.md R112 steps 4 and 5). -/

namespace Sys2Proof

/-- A byte is assigned to an opcode exactly when it is that opcode's byte (R88, R89). -/
theorem opcodeOf_some {b : Byte} {o : Opcode} : opcodeOf b = some o ↔ b = o.byte := by
  constructor
  · intro h
    unfold opcodeOf at h
    have hb := List.find?_some h
    exact (eq_of_beq hb).symm
  · rintro rfl
    cases o <;> decide

@[simp] theorem opcodeOf_byte (o : Opcode) : opcodeOf o.byte = some o := opcodeOf_some.2 rfl

theorem operandCount_byte (o : Opcode) : operandCount o.byte = (o.instr 0 0).operands.length := by
  cases o <;> decide

/-- `opc[7:6]` of an instruction's opcode is the number of its operand bytes (R80, R87(a)). -/
@[simp] theorem operandCount_opcode (i : Instr) : operandCount i.opcode.byte = i.operands.length := by
  cases i <;> exact operandCount_byte _

/-- Well-formedness asks of every register operand what R85 asks of one. -/
theorem wellFormed_iff {i : Instr} : i.wellFormed = true ↔ ∀ b ∈ i.regOperands, b.toNat ≤ 7 := by
  simp [Instr.wellFormed]

/-- A well-formed instruction passes the register check (R112 steps 4 and 5). -/
theorem checkIndices_of_wellFormed {i : Instr} (h : i.wellFormed = true) (rest : List Byte) :
    checkIndices i rest = .ok (i, rest) := by
  have : i.regOperands.find? (fun b => (regIdx b).isNone) = none := by
    rw [List.find?_eq_none]
    intro b hb
    have := wellFormed_iff.1 h b hb
    simp [Machine.regIdx_none]; omega
  simp [checkIndices, this]

/-- What the register check lets through is well-formed and unchanged. -/
theorem checkIndices_ok {i j : Instr} {rest rest' : List Byte} (h : checkIndices i rest = .ok (j, rest')) :
    j = i ∧ rest' = rest ∧ i.wellFormed = true := by
  unfold checkIndices at h
  split at h
  · cases h
  · rename_i hn
    cases h
    refine ⟨rfl, rfl, wellFormed_iff.2 fun b hb => ?_⟩
    have := List.find?_eq_none.1 hn b hb
    simp [Machine.regIdx_none] at this
    exact this

/-- What the register check rejects is a register operand above 7, the first such in the order `a`, `b`. -/
theorem checkIndices_error {i : Instr} {rest : List Byte} {e : Reject} (h : checkIndices i rest = .error e) :
    ∃ b, e = .badRegister b ∧ i.regOperands.find? (fun b => decide (7 < b.toNat)) = some b := by
  have hp : (fun b : Byte => (regIdx b).isNone) = fun b => decide (7 < b.toNat) := by
    funext b
    rw [Bool.eq_iff_iff]
    simp [Machine.regIdx_none]
  unfold checkIndices at h
  rw [hp] at h
  split at h
  · rename_i b hb
    cases h
    exact ⟨b, rfl, hb⟩
  · cases h

end Sys2Proof
end

