-- ==== Sys2Proof/Laws/PerInstr.lean ====
section
/-! SUPPORT. Facts about every instruction as syntax, one lemma per constructor.
`EncodingShape` (30_encoding.md R80, R87(a), R88): an instruction's first byte is the byte of its opcode, the opcode map
reads it back, and its bits 7:6 count the operand bytes that follow. -/

namespace Sys2Proof.Laws.EncodingShape

/-- The shape of one instruction's encoding. -/
def Statement (i : Instr) : Prop :=
  ∃ opc : Byte, encode i = opc :: i.operands ∧ opcodeOf opc = some i.opcode ∧
    operandCount opc = i.operands.length ∧ i.operands.length ≤ 2

theorem shape (i : Instr) (h : i.operands.length ≤ 2) : Statement i :=
  ⟨i.opcode.byte, rfl, opcodeOf_byte _, operandCount_opcode i, h⟩

theorem halt : Statement .halt := shape _ (by simp [Instr.operands])
theorem ret : Statement .ret := shape _ (by simp [Instr.operands])
theorem push (a : Byte) : Statement (.push a) := shape _ (by simp [Instr.operands])
theorem pop (a : Byte) : Statement (.pop a) := shape _ (by simp [Instr.operands])
theorem printRegister (a : Byte) : Statement (.printRegister a) := shape _ (by simp [Instr.operands])
theorem call (a : Byte) : Statement (.call a) := shape _ (by simp [Instr.operands])
theorem jump (a : Byte) : Statement (.jump a) := shape _ (by simp [Instr.operands])
theorem jumpIfEqual (a : Byte) : Statement (.jumpIfEqual a) := shape _ (by simp [Instr.operands])
theorem jumpIfNotEqual (a : Byte) : Statement (.jumpIfNotEqual a) := shape _ (by simp [Instr.operands])
theorem loadImmediate (a v : Byte) : Statement (.loadImmediate a v) := shape _ (by simp [Instr.operands])
theorem add (a b : Byte) : Statement (.add a b) := shape _ (by simp [Instr.operands])
theorem multiply (a b : Byte) : Statement (.multiply a b) := shape _ (by simp [Instr.operands])
theorem compare (a b : Byte) : Statement (.compare a b) := shape _ (by simp [Instr.operands])

end Sys2Proof.Laws.EncodingShape
end

