-- ==== Sys2Proof/Laws/Step.lean ====
section
/-! SUPPORT. What a step can do, said once: the fetched bytes, and the inversion of `step` (40_cycle_and_system.md R110 to
R113). -/

namespace Sys2Proof.Machine

theorem bytesFrom_succ (n : Nat) (addr : Addr) (s : State) :
    bytesFrom (n + 1) addr s =
      if addr.toNat ≤ 255 then s.cell addr.toNat :: bytesFrom n (addr + 1#9) s else [] := by
  rw [bytesFrom, memRead_eq]
  by_cases h : addr.toNat ≤ 255 <;> simp [h]

/-- Past the end of memory nothing is fetched (R111). -/
theorem bytesFrom_outside {n : Nat} {addr : Addr} {s : State} (h : 255 < addr.toNat) : bytesFrom n addr s = [] := by
  cases n with
  | zero => rfl
  | succ n => rw [bytesFrom_succ, if_neg (by omega)]

/-- The address after one inside memory. -/
theorem addr_succ_toNat {addr : Addr} (h : addr.toNat ≤ 255) : (addr + 1#9).toNat = addr.toNat + 1 := by
  rw [BitVec.toNat_add]; simp; omega

/-- Byte number `k` of the fetched bytes stands at `pc + k`. -/
theorem bytesFrom_getElem {n : Nat} {addr : Addr} {s : State} {k : Nat} (h : k < (bytesFrom n addr s).length) :
    (bytesFrom n addr s)[k] = s.cell (addr.toNat + k) := by
  induction n generalizing addr k with
  | zero => simp [bytesFrom] at h
  | succ n ih =>
    by_cases ha : addr.toNat ≤ 255
    · have he : bytesFrom (n + 1) addr s = s.cell addr.toNat :: bytesFrom n (addr + 1#9) s := by
        rw [bytesFrom_succ, if_pos ha]
      cases k with
      | zero => simp [he]
      | succ k =>
        have hk : k < (bytesFrom n (addr + 1#9) s).length := by simpa [he] using h
        have := ih hk
        rw [addr_succ_toNat ha] at this
        simp [he, this]
        congr 1; omega
    · rw [bytesFrom_outside (by omega)] at h
      simp at h

/-- The fetch reads at most `n` bytes and never past address 255 (R51, R54). -/
theorem bytesFrom_length (n : Nat) (addr : Addr) (s : State) :
    (bytesFrom n addr s).length = min n (256 - addr.toNat) := by
  induction n generalizing addr with
  | zero => simp [bytesFrom]
  | succ n ih =>
    rw [bytesFrom_succ]
    split
    · rename_i h
      simp [ih, addr_succ_toNat h]; omega
    · simp; omega

/-- A step is taken from a running state only, and it either runs the decoded instruction or takes the exception of the
fetch and decode phases (R110 to R113). -/
theorem step_next_cases {s t : State} (h : step s = .next t) :
    s.status = .running ∧
      ((∃ i, fetchDecode s = .ok i ∧ exec i s = .next t) ∨ ∃ e, fetchDecode s = .error e ∧ t = raise e s) := by
  unfold step at h
  split at h
  · cases h
  · cases h
  · rename_i hs
    refine ⟨hs, ?_⟩
    split at h
    · rename_i i hi; exact .inl ⟨i, hi, h⟩
    · rename_i e he
      exact .inr ⟨e, he, by cases h; rfl⟩

theorem step_of_fetched {s : State} {i : Instr} (hs : s.status = .running) (hi : fetchDecode s = .ok i) :
    step s = exec i s := by
  simp [step, hs, hi]

theorem step_of_exception {s : State} {e : FatalError} (hs : s.status = .running) (he : fetchDecode s = .error e) :
    step s = .next (raise e s) := by
  simp [step, hs, he]

/-- The induction over a run, packaged once: what holds after `Reset(img)` and is kept by every step holds of every
reachable state. -/
theorem Reachable.induct {img : List Byte} {P : State → Prop} (hb : ∀ s, Sys2Proof.Machine.boot img = .next s → P s)
    (hstep : ∀ s t, P s → Sys2Proof.Machine.step s = .next t → P t) {s : State} (h : Reachable img s) : P s := by
  induction h with
  | boot s h => exact hb s h
  | step s t _ h ih => exact hstep s t ih h

end Sys2Proof.Machine
end

