-- ==== Sys2Proof/Tests/Slice0.lean ====
section
/-! SUPPORT. The model's own tests: the WellFormed smoke, words written out from the spec's encodings, single steps whose
results are the vectors of spec/95_test_vectors.md (each named), and a state and operands that meet the hypotheses of each
statement of Obligations.lean, its clauses at the ends of their ranges. -/

open Sys2Proof Sys2Proof.Machine Sys2Proof.Spec

namespace Sys2Proof.Tests

/-- The reset state with `pc` moved and bytes placed at it. -/
def start (pc : Addr) (bytes : List Byte) : State := { State.reset with pc := pc }.placeBytes pc.toNat bytes

/-- The next state of an outcome, if there is one. -/
def nextOf : Host.Outcome State Fault Refusal → Option State
  | .next s => some s
  | .fault _ => none
  | .refused _ => none

/-- The state after one step. -/
def stepped (s : State) : Option State := nextOf (step s)

/-- The fault record after one step. -/
def faultAfter (s : State) : Option FaultRecord := (stepped s).bind (·.fault)

/-- `step` has a next state whenever `stepped` does. -/
theorem step_of_stepped {s t : State} (h : stepped s = some t) : step s = .next t := by
  unfold stepped at h
  cases hs : step s with
  | next u => rw [hs] at h; cases h; rfl
  | fault f => rw [hs] at h; cases h
  | refused r => rw [hs] at h; cases h

theorem next_of_nextOf {o : Host.Outcome State Fault Refusal} {t : State} (h : nextOf o = some t) : o = .next t := by
  cases o <;> simp [nextOf] at h
  rw [h]

/-! ### WellFormed refuses an ill-formed term for each check (30_encoding.md R85) -/

theorem test_wellFormed_refuses_operand_a :
    [Instr.push 8, .pop 8, .printRegister 8, .call 8, .jump 8, .jumpIfEqual 8, .jumpIfNotEqual 8,
     .loadImmediate 8 0, .add 8 0, .multiply 8 0, .compare 8 0, .push 0xFF, .add 0x80 0].all
      (fun i => !i.wellFormed) = true := by decide

theorem test_wellFormed_refuses_operand_b :
    [Instr.add 7 8, .multiply 7 8, .compare 7 8, .compare 0 0xF0].all (fun i => !i.wellFormed) = true := by decide

theorem test_wellFormed_accepts :
    [Instr.halt, .ret, .push 7, .pop 7, .printRegister 7, .call 7, .jump 7, .jumpIfEqual 7, .jumpIfNotEqual 7,
     .loadImmediate 7 0xFF, .add 7 7, .multiply 7 7, .compare 7 7].all Instr.wellFormed = true := by decide

/-! ### Every constructor's decoding, from the words of 30_encoding.md R88 written out bit by bit -/

theorem test_decode_halt : decode [0b00000001#8] = .ok (.halt, []) := by rfl
theorem test_decode_return : decode [0b00010001#8, 0xAA#8] = .ok (.ret, [0xAA#8]) := by rfl
theorem test_decode_push : decode [0b01000101#8, 0b00000011#8] = .ok (.push 3#8, []) := by rfl
theorem test_decode_pop : decode [0b01000110#8, 0b00000010#8] = .ok (.pop 2#8, []) := by rfl
theorem test_decode_printRegister : decode [0b01000111#8, 0b00000111#8] = .ok (.printRegister 7#8, []) := by rfl
theorem test_decode_call : decode [0b01010000#8, 0b00000001#8] = .ok (.call 1#8, []) := by rfl
theorem test_decode_jump : decode [0b01010100#8, 0b00000101#8] = .ok (.jump 5#8, []) := by rfl
theorem test_decode_jumpIfEqual : decode [0b01010101#8, 0b00000011#8] = .ok (.jumpIfEqual 3#8, []) := by rfl
theorem test_decode_jumpIfNotEqual : decode [0b01010110#8, 0b00000011#8] = .ok (.jumpIfNotEqual 3#8, []) := by rfl
theorem test_decode_loadImmediate :
    decode [0b10000010#8, 0b00000000#8, 0b11111111#8] = .ok (.loadImmediate 0#8 0xFF#8, []) := by rfl
theorem test_decode_add :
    decode [0b10100000#8, 0b00000111#8, 0b00000001#8] = .ok (.add 7#8 1#8, []) := by rfl
theorem test_decode_multiply :
    decode [0b10100010#8, 0b00000000#8, 0b00000001#8] = .ok (.multiply 0#8 1#8, []) := by rfl
theorem test_decode_compare :
    decode [0b10100111#8, 0b00000000#8, 0b00000010#8] = .ok (.compare 0#8 2#8, []) := by rfl

/-- R112: the opcode test, the two missing operands, the index of `a` before that of `b`. -/
theorem test_decode_rejects :
    decode [] = .error (.missingByte 0) ∧ decode [0x00#8] = .error (.invalidOpcode 0x00#8) ∧
    decode [0xA0#8] = .error (.missingByte 1) ∧ decode [0xA0#8, 9#8] = .error (.missingByte 2) ∧
    decode [0x54#8] = .error (.missingByte 1) ∧ decode [0xA0#8, 9#8, 8#8] = .error (.badRegister 9#8) ∧
    decode [0xA0#8, 7#8, 8#8] = .error (.badRegister 8#8) := ⟨rfl, rfl, rfl, rfl, rfl, rfl, rfl⟩

/-- The host's numbering: bit 0 is the least significant bit of the first byte. -/
theorem test_decodeTableWord :
    decodeTableWord 24 0x080082 = some (.loadImmediate 0#8 8#8) ∧ decodeTableWord 8 0xA0 = some (.add 0#8 0#8) ∧
    decodeTableWord 8 0x00 = none := ⟨rfl, rfl, rfl⟩

/-! ### One step each: vectors of spec/95_test_vectors.md -/

/-- V1, V2: HALT at 0 and at 255. -/
theorem test_halt :
    (stepped (start 0 [0x01])).map (fun t => (t.halted, t.pc)) = some (true, 1#9) ∧
    (stepped (start 255 [0x01])).map (fun t => (t.halted, t.pc, t.fault)) = some (true, 256#9, none) := by decide

/-- V4: PRINT_REGISTER R7 prints the stack pointer. -/
theorem test_print_sp : (stepped (start 0 [0x47, 0x07])).map (fun t => (t.out, t.pc)) = some ([244#8], 2#9) := by decide

/-- V22, V25: LOAD_IMMEDIATE at 253 leaves `pc` 256; the immediate 0xFF is used as it is. -/
theorem test_loadImmediate :
    (stepped (start 0xFD [0x82, 0x00, 0x07])).map (fun t => (t.reg 0, t.pc)) = some (0x07#8, 256#9) ∧
    (stepped (start 0 [0x82, 0x00, 0xFF])).map (fun t => t.reg 0) = some 0xFF#8 := by decide

/-- V30, V33: ADD wraps; the same register twice doubles. -/
theorem test_add :
    (stepped (((start 0 [0xA0, 0, 1]).setReg 0 0xC8).setReg 1 0x64)).map (fun t => (t.reg 0, t.reg 1, t.fl)) =
      some (0x2C#8, 0x64#8, 0#8) ∧
    (stepped ((start 0 [0xA0, 2, 2]).setReg 2 0x90)).map (fun t => t.reg 2) = some 0x20#8 := by decide

/-- V37, V39: MULTIPLY keeps the low byte. -/
theorem test_multiply :
    (stepped (((start 0 [0xA2, 0, 1]).setReg 0 0xFF).setReg 1 0xFF)).map (fun t => t.reg 0) = some 0x01#8 ∧
    (stepped ((start 0 [0xA2, 2, 2]).setReg 2 0x11)).map (fun t => t.reg 2) = some 0x21#8 := by decide

/-- V44, V45: COMPARE clears the old flag; the order is unsigned. -/
theorem test_compare :
    (stepped (((start 0 [0xA7, 4, 4]).setReg 4 9).setFl 4)).map (fun t => t.fl) = some 0x01#8 ∧
    (stepped (((start 0 [0xA7, 0, 1]).setReg 0 0x80).setReg 1 0x7F)).map (fun t => (t.fl, t.reg 0)) =
      some (0x02#8, 0x80#8) := by decide

/-- V51, V52: PUSH wraps from 0 to 255; PUSH R7 stores the decremented pointer. -/
theorem test_push :
    (stepped (((start 0x10 [0x45, 0]).setSp 0).setReg 0 0xAB)).map (fun t => (t.sp, t.cell 0xFF, t.pc)) =
      some (0xFF#8, 0xAB#8, 0x12#9) ∧
    (stepped (start 0 [0x45, 7])).map (fun t => (t.sp, t.cell 0xF3)) = some (0xF3#8, 0xF3#8) := by decide

/-- V54, V55: POP wraps from 255 to 0; POP R7 loads, then increments. -/
theorem test_pop :
    (stepped (((start 0x10 [0x46, 0]).setSp 0xFF).setCell 0xFF 0xCD)).map (fun t => (t.reg 0, t.sp, t.cell 0xFF)) =
      some (0xCD#8, 0x00#8, 0xCD#8) ∧
    (stepped (((start 0 [0x46, 7]).setSp 0xF3).setCell 0xF3 0x20)).map (fun t => t.sp) = some 0x21#8 := by decide

/-- V61, V62: CALL at 254 stores the truncated return address; CALL R7 jumps to the decremented pointer. -/
theorem test_call :
    (stepped (((start 0xFE [0x50, 1]).setReg 1 0x10).setCell 0xF3 0x77)).map (fun t => (t.sp, t.cell 0xF3, t.pc)) =
      some (0xF3#8, 0x00#8, 0x010#9) ∧
    (stepped (start 8 [0x50, 7])).map (fun t => (t.sp, t.cell 0xF3, t.pc)) = some (0xF3#8, 0x0A#8, 0x0F3#9) := by decide

/-- V63, V64: RETURN, and RETURN with nothing pushed. -/
theorem test_return :
    (stepped (((start 0x14 [0x11]).setSp 0xF2).setCell 0xF2 0x0A)).map (fun t => (t.pc, t.sp)) =
      some (0x00A#9, 0xF3#8) ∧
    (stepped (start 0 [0x11])).map (fun t => (t.pc, t.sp)) = some (0#9, 0xF5#8) := by decide

/-- V65: JUMP. -/
theorem test_jump : (stepped ((start 0x21 [0x54, 5]).setReg 5 0x24)).map (fun t => t.pc) = some 0x024#9 := by decide

/-- V67, V68: JUMP_IF_EQUAL taken, and falling through by exactly 2. -/
theorem test_jumpIfEqual :
    (stepped (((start 0x12 [0x55, 3]).setReg 3 0x16).setFl 1)).map (fun t => t.pc) = some 0x016#9 ∧
    (stepped (((start 0x12 [0x55, 3]).setReg 3 0x16).setFl 4)).map (fun t => t.pc) = some 0x014#9 := by decide

/-- V70, V73: JUMP_IF_NOT_EQUAL taken before any COMPARE, and falling through. -/
theorem test_jumpIfNotEqual :
    (stepped ((start 0 [0x56, 3]).setReg 3 0x40)).map (fun t => t.pc) = some 0x040#9 ∧
    (stepped (((start 0x14 [0x56, 3]).setReg 3 0x0C).setFl 1)).map (fun t => t.pc) = some 0x016#9 := by decide

/-- V6, V7, V8, V9, V11, V23, V48, V74: the exceptions, their order and what they record. -/
theorem test_exceptions :
    faultAfter (start 0 [0x47, 8]) = some ⟨.outOfRangeAccess (.reg 8), 0⟩ ∧
    faultAfter (start 255 [0x47]) = some ⟨.outOfRangeAccess (.mem 256), 255⟩ ∧
    faultAfter State.reset = some ⟨.invalidOpcode 0, 0⟩ ∧
    faultAfter (start 255 [0xFF]) = some ⟨.invalidOpcode 0xFF, 255⟩ ∧
    faultAfter (start 256 []) = some ⟨.outOfRangeAccess (.mem 256), 256⟩ ∧
    faultAfter (start 0xFE [0x82, 0]) = some ⟨.outOfRangeAccess (.mem 256), 0xFE⟩ ∧
    faultAfter (start 0 [0xA0, 9, 0xC8]) = some ⟨.outOfRangeAccess (.reg 9), 0⟩ ∧
    faultAfter (start 0 [0x55, 8]) = some ⟨.outOfRangeAccess (.reg 8), 0⟩ := by decide

/-! ### Witnesses: a state and operands that meet the hypotheses of each statement -/

theorem witness_ExecutionStartsAtAddressZero : ∃ s b bs, boot [0x82#8, 0, 8] = .next s ∧ [0x82#8, 0, 8] = b :: bs :=
  ⟨_, _, _, rfl, rfl⟩

theorem witness_BootPlacesTheImage :
    ([] : List Byte).length ≤ 256 ∧ (List.replicate 256 0xFF#8).length ≤ 256 ∧ 255 < (List.replicate 256 0xFF#8).length ∧
    (List.replicate 255 0xFF#8).length ≤ 255 := by
  simp only [List.length_replicate, List.length_nil]; decide

theorem witness_BootRefusesLongImages : 256 < (List.replicate 257 0x01#8).length ∧ ∃ s, boot [0x01#8] = .next s :=
  ⟨by rw [List.length_replicate]; decide, _, rfl⟩

theorem witness_MemReadContract : 255 < (256#9).toNat ∧ (255#9).toNat ≤ 255 ∧ (0#9).toNat ≤ 255 := by decide

theorem witness_MemWriteThenRead :
    (start 0 [0x82, 7, 8]).mem.wf = true ∧ 255 < (256#9).toNat ∧ (255#9).toNat ≤ 255 ∧ (254#9) ≠ 255#9 := by decide

theorem witness_CanonicalMemoryIsExtensional :
    Memory.wf [(0, 1#8), (255, 2#8)] = true ∧ ∀ a < 256, Memory.cell [(0, 1#8), (255, 2#8)] a =
      Memory.cell (Memory.set [(255, 2#8)] 0 1#8) a := ⟨by decide, fun _ _ => rfl⟩

/-- The hypotheses of the results of PRINT_REGISTER, LOAD_IMMEDIATE, PUSH, POP, CALL, JUMP, JUMP_IF_EQUAL,
JUMP_IF_NOT_EQUAL, ADD, MULTIPLY and COMPARE, and of LoadThenPrintEmitsTheImmediate and CompareThenBranch: an operand byte
that names a register, at both ends of the range and on both sides of `r = 7`. -/
theorem witness_operand_names_register : names 0#8 0 ∧ names 6#8 6 ∧ names 7#8 7 := by decide

/-- The two outcomes of the conditional jumps and the three of COMPARE are all met. -/
theorem witness_flag_and_order_cases :
    ((0x01#8)[0] = true) ∧ ((0x04#8)[0] = false) ∧ (2#8).toNat < (5#8).toNat ∧ (5#8).toNat > (2#8).toNat ∧
    ¬ (5#8).toNat < (5#8).toNat := by decide

theorem witness_BadRegisterOperandRaises :
    (Instr.push 8).regOperands.find? (fun b => decide (7 < b.toNat)) = some 8#8 ∧
    (Instr.add 7 0xFF).regOperands.find? (fun b => decide (7 < b.toNat)) = some 0xFF#8 ∧
    (Instr.compare 8 9).regOperands.find? (fun b => decide (7 < b.toNat)) = some 8#8 := by decide

theorem witness_RegistersReadAndWritten :
    (∃ t, exec (.loadImmediate 0 5) State.reset = .next t) ∧ ¬ writes (.loadImmediate 0 5) 7 ∧
    ¬ reads (.loadImmediate 0 5) State.reset 7 ∧ ¬ reads (.loadImmediate 0 5) State.reset 0 ∧ writes (.loadImmediate 0 5) 0 :=
  ⟨⟨_, rfl⟩, by simp only [writes]; decide, fun h => h, fun h => h, by simp only [writes]; decide⟩

theorem witness_FlagsWrittenByCompareOnly :
    ((∃ t, exec (.compare 0 7) State.reset = .next t) ∧
      (∃ a b, Instr.compare 0 7 = .compare a b) ∧ (Instr.compare 0 7).wellFormed = true) ∧
    ((∃ t, exec (.compare 0 8) State.reset = .next t) ∧ (Instr.compare 0 8).wellFormed = false) ∧
    (∃ t, exec (.add 0 7) State.reset = .next t) ∧ ∀ a b, Instr.add 0 7 ≠ .compare a b :=
  ⟨⟨⟨_, rfl⟩, ⟨0, 7, rfl⟩, rfl⟩, ⟨⟨_, rfl⟩, rfl⟩, ⟨_, rfl⟩, fun _ _ h => by cases h⟩

theorem witness_HaltedFlagSetByHaltOnly :
    (∃ t, exec .halt State.reset = .next t) ∧ (∃ t, step (start 255 [0x01]) = .next t) ∧
    { State.reset with halted := true }.halted = true :=
  ⟨⟨_, rfl⟩, ⟨_, step_of_stepped rfl⟩, rfl⟩

theorem witness_OutputIsAppendOnlyAndUnread : ∃ t, exec (.printRegister 7) State.reset = .next t := ⟨_, rfl⟩

theorem witness_MemoryFrame :
    (∃ t, exec (.push 7) State.reset = .next t) ∧ storeAddress (.push 7) State.reset ≠ some 0xF2 ∧
    storeAddress (.push 7) State.reset = some 0xF3 ∧ storeAddress (.pop 7) State.reset ≠ some 0xF3 ∧
    (Instr.push 8).wellFormed = false := ⟨⟨_, rfl⟩, by decide⟩

theorem witness_ExecutePhaseRaisesNothing : (Instr.add 7 7).wellFormed = true := by decide

/-- Code that ends at the last cell of memory. -/
theorem witness_StepRunsTheDecodedInstruction :
    (start 253 [0xA0, 7, 7]).status = .running ∧ codeAt (start 253 [0xA0, 7, 7]) [0xA0#8, 7, 7] ∧
    decode [0xA0#8, 7, 7] = .ok (.add 7 7, []) :=
  ⟨rfl, ⟨by decide, by decide⟩, rfl⟩

theorem witness_StepFollowsTheDecodeProcedure : State.reset.status = .running := rfl

theorem witness_UnassignedOpcodeRaises :
    (start 255 [0xFF]).status = .running ∧ (start 255 [0xFF]).pc.toNat ≤ 255 ∧
    (start 255 [0xFF]).cell (start 255 [0xFF]).pc.toNat ∉ assigned := by decide

theorem witness_FetchPastMemoryRaises : (start 256 []).status = .running ∧ 255 < (start 256 []).pc.toNat := by decide

theorem witness_RunningStateHasANextState : (start 256 []).status = .running := rfl

theorem witness_TerminalStateHasNoStep :
    { State.reset with halted := true }.status = .halted ∧
    (raised State.reset (.invalidOpcode 0)).status = .faulted := by decide

theorem witness_ExceptionsArePrecise :
    ∃ t, step State.reset = .next t ∧ t.fault ≠ State.reset.fault :=
  ⟨raised State.reset (.invalidOpcode 0), step_of_stepped (by decide), by decide⟩

theorem witness_UnsupportedOperationNeverRaised : ∃ t, step State.reset = .next t := ⟨_, step_of_stepped rfl⟩

theorem witness_OnlyPushAndCallWriteMemory :
    ∃ t, step (start 0 [0x45, 7]) = .next t ∧ t.cell 0xF3 ≠ (start 0 [0x45, 7]).cell 0xF3 :=
  ⟨_, step_of_stepped rfl, by decide⟩

theorem witness_OnlyTheEqualFlagIsRead :
    (0x04#8)[0] = State.reset.fl[0] ∧ (0x04#8) ≠ State.reset.fl ∧ (∃ t, step State.reset = .next t) ∧
    step { State.reset with halted := true } = .fault .machineHalted :=
  ⟨by decide, by decide, ⟨_, step_of_stepped rfl⟩, rfl⟩

/-- P6 of spec/95_test_vectors.md at its third step, with HALT and with the unassigned 0xFF as the byte stored. -/
theorem witness_StoreIsSeenByTheNextFetch :
    ∀ v ∈ [0x01#8, 0xFF#8], (((start 6 [0x45, 0]).setReg 0 v).setSp 9).mem.wf = true ∧
      (stepped (((start 6 [0x45, 0]).setReg 0 v).setSp 9)).isSome = true ∧
      (((start 6 [0x45, 0]).setReg 0 v).setSp 9).cell 6 = 0x45#8 ∧
      names ((((start 6 [0x45, 0]).setReg 0 v).setSp 9).cell 7) 0 ∧
      ((((start 6 [0x45, 0]).setReg 0 v).setSp 9).sp - 1#8).toNat = 6 + 2 := by decide

theorem witness_PlacedWordRuns :
    (start 253 []).status = .running ∧ (start 253 []).mem.wf = true ∧ (start 253 []).pc.toNat ≤ 253 ∧
    decodeTableWord 24 0x0707A0 = some (.add 7 7) := by decide

theorem witness_DecodeOfEncode : (Instr.loadImmediate 7 0xFF).wellFormed = true := by decide

theorem witness_DecodedBytesAreTheEncoding : decode [0x82#8, 7, 0xFF, 0x00] = .ok (.loadImmediate 7 0xFF, [0x00]) := rfl

theorem witness_OpcodeMapConstraints : Opcode.halt.byte = Opcode.halt.byte ∧ opcodeOf 0x01#8 = some .halt := by decide

/-- A state with a program in memory meets the invariant and takes a step. -/
theorem witness_InvariantKeptByStep :
    (start 0 [0x01]).Inv ∧ ∃ t, step (start 0 [0x01]) = .next t :=
  ⟨⟨by decide, .inl rfl, by decide, fun _ => rfl, fun _ h => by cases h⟩, _, step_of_stepped rfl⟩

theorem witness_InvariantOfEveryRun : ∃ s t, Reachable [0x01#8] s ∧ Reachable [0x01#8] t ∧ s ≠ t :=
  ⟨_, _, .boot (start 0 [0x01]) rfl, .step (start 0 [0x01]) _ (.boot _ rfl) (step_of_stepped rfl), by decide⟩

theorem witness_PushThenPopRoundTrip :
    (start 0 [0x45, 0, 0x46, 1]).mem.wf = true ∧ names 0#8 0 ∧ names 6#8 6 ∧ (0 : Fin 8) ≠ 7 ∧ (6 : Fin 8) ≠ 7 := by decide

/-- The CALL of P2, moved to the last address whose return address fits a byte, and a state left as the CALL left it. -/
theorem witness_CallThenReturnResumes :
    ∃ u w : State, (start 253 [0x50, 6]).mem.wf = true ∧ names 6#8 6 ∧ (start 253 [0x50, 6]).pc.toNat ≤ 253 ∧
      exec (.call 6) (start 253 [0x50, 6]) = .next u ∧ w.sp = u.sp ∧ w.cell u.sp.toNat = u.cell u.sp.toNat :=
  ⟨_, { (start 253 [0x50, 6]).decSp.setCell 0xF3 0xFF with out := [1#8] }, by decide, by decide, by decide, rfl, by decide, by decide⟩

/-- CompareThenBranch meets both of its clauses. -/
theorem witness_CompareThenBranch :
    State.reset.reg 0 = State.reset.reg 1 ∧ State.reset.reg 0 ≠ State.reset.reg 7 := by decide

end Sys2Proof.Tests
end

/-! ## The execute phase: what each instruction does when it completes, and when it raises -/

section
open Sys2Proof.Spec

namespace Sys2Proof.Machine

/-- The next state of an execute phase that completes, one constructor per path of an instruction: the register operands
name registers, and the state is written with the named operations (40_cycle_and_system.md R113). `exec_of_completes`
and `exec_next_cases` tie it to `exec`. -/
inductive Completes (s : State) : Instr → State → Prop
  | halt : Completes s .halt (s.setHalted.advance 1)
  | ret : Completes s .ret (s.setPc (zext9 (s.cell s.sp.toNat))).incSp
  | push {a : Byte} {r : Fin 8} (ha : names a r) :
      Completes s (.push a) ((s.decSp.setCell s.decSp.sp.toNat (s.decSp.reg r)).advance 2)
  | pop {a : Byte} {r : Fin 8} (ha : names a r) :
      Completes s (.pop a) ((s.setReg r (s.cell s.sp.toNat)).incSp.advance 2)
  | printRegister {a : Byte} {r : Fin 8} (ha : names a r) :
      Completes s (.printRegister a) ((s.emit (s.reg r)).advance 2)
  | call {a : Byte} {r : Fin 8} (ha : names a r) :
      Completes s (.call a) ((s.decSp.setCell s.decSp.sp.toNat (returnAddress s.decSp)).jumpTo r)
  | jump {a : Byte} {r : Fin 8} (ha : names a r) : Completes s (.jump a) (s.jumpTo r)
  | jumpIfEqual_taken {a : Byte} {r : Fin 8} (ha : names a r) (hE : s.flE = true) :
      Completes s (.jumpIfEqual a) (s.jumpTo r)
  | jumpIfEqual_fallThrough {a : Byte} {r : Fin 8} (ha : names a r) (hE : s.flE = false) :
      Completes s (.jumpIfEqual a) (s.advance 2)
  | jumpIfNotEqual_taken {a : Byte} {r : Fin 8} (ha : names a r) (hE : s.flE = false) :
      Completes s (.jumpIfNotEqual a) (s.jumpTo r)
  | jumpIfNotEqual_fallThrough {a : Byte} {r : Fin 8} (ha : names a r) (hE : s.flE = true) :
      Completes s (.jumpIfNotEqual a) (s.advance 2)
  | loadImmediate {a v : Byte} {r : Fin 8} (ha : names a r) :
      Completes s (.loadImmediate a v) ((s.setReg r v).advance 3)
  | add {a b : Byte} {ra rb : Fin 8} (ha : names a ra) (hb : names b rb) :
      Completes s (.add a b) ((s.setReg ra (add8 (s.reg ra) (s.reg rb))).advance 3)
  | multiply {a b : Byte} {ra rb : Fin 8} (ha : names a ra) (hb : names b rb) :
      Completes s (.multiply a b) ((s.setReg ra (mul8 (s.reg ra) (s.reg rb))).advance 3)
  | compare {a b : Byte} {ra rb : Fin 8} (ha : names a ra) (hb : names b rb) :
      Completes s (.compare a b) ((s.setFl (cmp8 (s.reg ra) (s.reg rb))).advance 3)

/-- The first register operand above 7, `a` before `b`: the one whose index the exception records (R85, R112). -/
def firstBadOperand (i : Instr) : Option Byte := i.regOperands.find? fun b => decide (7 < b.toNat)

theorem wellFormed_iff_no_badOperand {i : Instr} : i.wellFormed = true ↔ firstBadOperand i = none := by
  simp [wellFormed_iff, firstBadOperand]

theorem exists_names_of_le {b : Byte} (h : b.toNat ≤ 7) : ∃ r : Fin 8, names b r :=
  ⟨⟨b.toNat, by omega⟩, rfl⟩

/-- A sub-step that succeeds hands its value on. -/
theorem ok_bind {α β : Type} (x : α) (f : α → Except FatalError β) : (Except.ok x >>= f) = f x := rfl

/-- An operand that names a register does not stop the execute phase. -/
theorem regOperand_bind_of_names {α : Type} {a : Byte} {r : Fin 8} (h : names a r)
    (f : Fin 8 → Except FatalError α) : (regOperand a >>= f) = f r := by
  rw [regOperand_of_names h, ok_bind]

/-- The only register operand being the bad one, the execute phase raises on it. -/
theorem regOperand_bind_of_bad {α : Type} {a c : Byte} (h : [a].find? (fun b => decide (7 < b.toNat)) = some c)
    (f : Fin 8 → Except FatalError α) : (regOperand a >>= f) = .error (.outOfRangeAccess (.reg c)) := by
  obtain ⟨hgt, rfl⟩ : 7 < a.toNat ∧ a = c := by simpa using h
  rw [regOperand_of_gt hgt]; rfl

/-- Of two register operands the first bad one is raised on (R85, R112 steps 4 and 5). -/
theorem regOperands_bind_of_bad {α : Type} {a b c : Byte}
    (h : [a, b].find? (fun b => decide (7 < b.toNat)) = some c) (f : Fin 8 → Fin 8 → Except FatalError α) :
    (regOperand a >>= fun ra => regOperand b >>= f ra) = .error (.outOfRangeAccess (.reg c)) := by
  obtain ⟨r, hr, hok⟩ | ⟨hgt, herr⟩ := regOperand_cases a
  · have hb : [b].find? (fun b => decide (7 < b.toNat)) = some c := by
      have : ¬ 7 < a.toNat := by omega
      simpa [List.find?_cons, this] using h
    rw [hok, ok_bind]; exact regOperand_bind_of_bad hb (f r)
  · obtain rfl : a = c := by simpa [List.find?_cons, hgt] using h
    rw [herr]; rfl

/-- What completes is what `exec` answers. -/
theorem exec_of_completes {s t : State} {i : Instr} (h : Completes s i t) : exec i s = .next t := by
  cases h with
  | halt => rfl
  | ret => simp [exec, execReturn, ok_bind]
  | push ha => simp [exec, execPush, regOperand_bind_of_names ha, ok_bind]
  | pop ha => simp [exec, execPop, regOperand_bind_of_names ha, ok_bind]
  | printRegister ha => simp [exec, execPrintRegister, regOperand_bind_of_names ha]
  | call ha => simp [exec, execCall, regOperand_bind_of_names ha, ok_bind]
  | jump ha => simp [exec, execJump, regOperand_bind_of_names ha]
  | jumpIfEqual_taken ha hE | jumpIfEqual_fallThrough ha hE =>
    simp [exec, execJumpIfEqual, regOperand_bind_of_names ha, hE]
  | jumpIfNotEqual_taken ha hE | jumpIfNotEqual_fallThrough ha hE =>
    simp [exec, execJumpIfNotEqual, regOperand_bind_of_names ha, hE]
  | loadImmediate ha => simp [exec, execLoadImmediate, regOperand_bind_of_names ha]
  | add ha hb => simp [exec, execAdd, regOperand_bind_of_names ha, regOperand_bind_of_names hb]
  | multiply ha hb => simp [exec, execMultiply, regOperand_bind_of_names ha, regOperand_bind_of_names hb]
  | compare ha hb => simp [exec, execCompare, regOperand_bind_of_names ha, regOperand_bind_of_names hb]

/-- `exec` of a term with a register operand above 7 raises on the first such operand (R85; log entry 5). -/
theorem exec_of_badOperand {i : Instr} {b : Byte} (h : firstBadOperand i = some b) (s : State) :
    exec i s = .next (raise (.outOfRangeAccess (.reg b)) s) := by
  cases i with
  | halt | ret => cases h
  | push | pop | printRegister | call | jump | jumpIfEqual | jumpIfNotEqual | loadImmediate =>
    exact congrArg (finish s) (regOperand_bind_of_bad h _)
  | add | multiply | compare => exact congrArg (finish s) (regOperands_bind_of_bad h _)

/-- The execute phase of a well-formed instruction completes (R113). -/
theorem exists_completes {i : Instr} (hw : i.wellFormed = true) (s : State) : ∃ t, Completes s i t := by
  have hreg : ∀ b ∈ i.regOperands, ∃ r : Fin 8, names b r :=
    fun b hb => exists_names_of_le (wellFormed_iff.1 hw b hb)
  cases i with
  | halt => exact ⟨_, .halt⟩
  | ret => exact ⟨_, .ret⟩
  | push a => obtain ⟨r, ha⟩ := hreg a List.mem_cons_self; exact ⟨_, .push ha⟩
  | pop a => obtain ⟨r, ha⟩ := hreg a List.mem_cons_self; exact ⟨_, .pop ha⟩
  | printRegister a => obtain ⟨r, ha⟩ := hreg a List.mem_cons_self; exact ⟨_, .printRegister ha⟩
  | call a => obtain ⟨r, ha⟩ := hreg a List.mem_cons_self; exact ⟨_, .call ha⟩
  | jump a => obtain ⟨r, ha⟩ := hreg a List.mem_cons_self; exact ⟨_, .jump ha⟩
  | jumpIfEqual a =>
    obtain ⟨r, ha⟩ := hreg a List.mem_cons_self
    cases hE : s.flE with
    | true => exact ⟨_, .jumpIfEqual_taken ha hE⟩
    | false => exact ⟨_, .jumpIfEqual_fallThrough ha hE⟩
  | jumpIfNotEqual a =>
    obtain ⟨r, ha⟩ := hreg a List.mem_cons_self
    cases hE : s.flE with
    | true => exact ⟨_, .jumpIfNotEqual_fallThrough ha hE⟩
    | false => exact ⟨_, .jumpIfNotEqual_taken ha hE⟩
  | loadImmediate a v => obtain ⟨r, ha⟩ := hreg a List.mem_cons_self; exact ⟨_, .loadImmediate ha⟩
  | add a b =>
    obtain ⟨ra, ha⟩ := hreg a List.mem_cons_self
    obtain ⟨rb, hb⟩ := hreg b (List.mem_cons_of_mem _ List.mem_cons_self)
    exact ⟨_, .add ha hb⟩
  | multiply a b =>
    obtain ⟨ra, ha⟩ := hreg a List.mem_cons_self
    obtain ⟨rb, hb⟩ := hreg b (List.mem_cons_of_mem _ List.mem_cons_self)
    exact ⟨_, .multiply ha hb⟩
  | compare a b =>
    obtain ⟨ra, ha⟩ := hreg a List.mem_cons_self
    obtain ⟨rb, hb⟩ := hreg b (List.mem_cons_of_mem _ List.mem_cons_self)
    exact ⟨_, .compare ha hb⟩

/-- Every `exec` answers a next state: the instruction completes, or its first bad register operand is raised on. -/
theorem exec_cases (i : Instr) (s : State) :
    (∃ t, Completes s i t ∧ exec i s = .next t) ∨
    (∃ b, firstBadOperand i = some b ∧ exec i s = .next (raise (.outOfRangeAccess (.reg b)) s)) := by
  cases hb : firstBadOperand i with
  | some b => exact .inr ⟨b, rfl, exec_of_badOperand hb s⟩
  | none =>
    obtain ⟨t, ht⟩ := exists_completes (wellFormed_iff_no_badOperand.2 hb) s
    exact .inl ⟨t, ht, exec_of_completes ht⟩

/-- The inversion of `exec`. -/
theorem exec_next_cases {i : Instr} {s t : State} (h : exec i s = .next t) :
    Completes s i t ∨ ∃ b, firstBadOperand i = some b ∧ t = raise (.outOfRangeAccess (.reg b)) s := by
  obtain ⟨u, hu, he⟩ | ⟨b, hb, he⟩ := exec_cases i s
  · cases he.symm.trans h; exact .inl hu
  · cases he.symm.trans h; exact .inr ⟨b, hb, rfl⟩

theorem exec_total (i : Instr) (s : State) : ∃ t, exec i s = .next t := by
  obtain ⟨t, -, h⟩ | ⟨b, -, h⟩ := exec_cases i s
  · exact ⟨t, h⟩
  · exact ⟨_, h⟩

namespace Completes

variable {s t : State} {i : Instr}

theorem wellFormed (h : Completes s i t) : i.wellFormed = true := by
  have hle {a : Byte} {r : Fin 8} (ha : names a r) : a.toNat ≤ 7 := by
    have := r.isLt
    omega
  cases h with
  | halt | ret => rfl
  | push ha | pop ha | printRegister ha | call ha | jump ha | jumpIfEqual_taken ha | jumpIfEqual_fallThrough ha
  | jumpIfNotEqual_taken ha | jumpIfNotEqual_fallThrough ha | loadImmediate ha =>
    simpa [wellFormed_iff, Instr.regOperands] using hle ha
  | add ha hb | multiply ha hb | compare ha hb =>
    simpa [wellFormed_iff, Instr.regOperands] using ⟨hle ha, hle hb⟩

/-! ### Component by component: what a completed execute phase leaves -/

theorem fault_eq (h : Completes s i t) : t.fault = s.fault := by cases h <;> rfl

/-- Only HALT writes the halted flag (R32). -/
theorem halted_eq (h : Completes s i t) : t.halted = (s.halted || decide (i = .halt)) := by cases h <;> simp

/-- `pc` advances by the instruction's length or takes a byte (R26, R180). -/
theorem pc_cases (h : Completes s i t) :
    t.pc = s.pc + BitVec.ofNat 9 (encode i).length ∨ ∃ v : Byte, t.pc = zext9 v := by
  cases h with
  | halt | push | pop | printRegister | jumpIfEqual_fallThrough | jumpIfNotEqual_fallThrough | loadImmediate | add
  | multiply | compare => exact .inl rfl
  | ret | call | jump | jumpIfEqual_taken | jumpIfNotEqual_taken => exact .inr ⟨_, rfl⟩

/-- At most one cell of memory is written, inside 0..255 (R54). -/
theorem mem_cases (h : Completes s i t) : t.mem = s.mem ∨ ∃ a v : Byte, t.mem = s.mem.set a.toNat v := by
  cases h with
  | push | call => exact .inr ⟨_, _, rfl⟩
  | halt | ret | pop | printRegister | jump | jumpIfEqual_taken | jumpIfEqual_fallThrough | jumpIfNotEqual_taken
  | jumpIfNotEqual_fallThrough | loadImmediate | add | multiply | compare => exact .inl rfl

/-- COMPARE alone writes `FL`, and leaves what a comparison leaves (R30). -/
theorem fl_cases (h : Completes s i t) :
    ((∃ a b, i = .compare a b) ∧ ∃ p q, t.fl = cmp8 p q) ∨ ((¬ ∃ a b, i = .compare a b) ∧ t.fl = s.fl) := by
  cases h with
  | compare => exact .inl ⟨⟨_, _, rfl⟩, _, _, rfl⟩
  | halt | ret | push | pop | printRegister | call | jump | jumpIfEqual_taken | jumpIfEqual_fallThrough
  | jumpIfNotEqual_taken | jumpIfNotEqual_fallThrough | loadImmediate | add | multiply =>
    exact .inr ⟨(by rintro ⟨_, _, ⟨⟩⟩), rfl⟩

end Completes

/-- A comparison sets exactly one flag (R141, R146). -/
theorem cmp8_cases (p q : Byte) : cmp8 p q = flLess ∨ cmp8 p q = flGreater ∨ cmp8 p q = flEqual := by
  unfold cmp8
  split
  · exact .inl rfl
  · split
    · exact .inr (.inl rfl)
    · exact .inr (.inr rfl)

/-! ### The execute phase and a register it does not read (10_state.md R22) -/

theorem setReg_setReg_self (s : State) (r : Fin 8) (v w : Byte) : (s.setReg r v).setReg r w = s.setReg r w := by
  simp [State.setReg]

theorem setReg_setReg_comm (s : State) {q r : Fin 8} (h : q ≠ r) (v w : Byte) :
    (s.setReg q v).setReg r w = (s.setReg r w).setReg q v := by
  have hval : q.val ≠ r.val := fun e => h (Fin.ext e)
  simp [State.setReg, Vector.set_comm _ _ hval]

theorem setReg_sp_of_ne (s : State) {q : Fin 8} (h : q ≠ 7) (v : Byte) : (s.setReg q v).sp = s.sp :=
  setReg_reg_ne s v h.symm

theorem decSp_setReg (s : State) {q : Fin 8} (h : q ≠ 7) (v : Byte) : (s.setReg q v).decSp = s.decSp.setReg q v := by
  simp only [State.decSp, State.setSp, setReg_sp_of_ne s h]
  exact setReg_setReg_comm s h _ _

theorem incSp_setReg (s : State) {q : Fin 8} (h : q ≠ 7) (v : Byte) : (s.setReg q v).incSp = s.incSp.setReg q v := by
  simp only [State.incSp, State.setSp, setReg_sp_of_ne s h]
  exact setReg_setReg_comm s h _ _

theorem jumpTo_setReg (s : State) {q r : Fin 8} (h : q ≠ r) (v : Byte) :
    (s.setReg q v).jumpTo r = (s.jumpTo r).setReg q v := by
  simp only [State.jumpTo, setReg_reg_ne s v h.symm]
  rfl

theorem advance_setReg (s : State) (q : Fin 8) (v : Byte) (n : Nat) :
    (s.setReg q v).advance n = (s.advance n).setReg q v := rfl

theorem setCell_setReg (s : State) (q : Fin 8) (v : Byte) (a : Nat) (w : Byte) :
    (s.setReg q v).setCell a w = (s.setCell a w).setReg q v := rfl

theorem setPc_setReg (s : State) (q : Fin 8) (v : Byte) (p : Addr) :
    (s.setReg q v).setPc p = (s.setPc p).setReg q v := rfl

theorem emit_setReg (s : State) (q : Fin 8) (v w : Byte) : (s.setReg q v).emit w = (s.emit w).setReg q v := rfl

theorem setFl_setReg (s : State) (q : Fin 8) (v w : Byte) : (s.setReg q v).setFl w = (s.setFl w).setReg q v := rfl

theorem returnAddress_setReg (s : State) (q : Fin 8) (v : Byte) : returnAddress (s.setReg q v) = returnAddress s := rfl

/-- A register that an operand does not name is not the one it names. -/
theorem ne_of_not_names {a : Byte} {q r : Fin 8} (hq : ¬ names a q) (ha : names a r) : q ≠ r := by
  rintro rfl
  exact hq ha

theorem eq_of_names {a : Byte} {q r : Fin 8} (hq : names a q) (ha : names a r) : q = r :=
  Fin.ext (hq.symm.trans ha)

namespace Completes

variable {s t : State} {i : Instr} {q : Fin 8}

theorem reg_of_not_writes (h : Completes s i t) (hw : ¬ writes i q) : t.reg q = s.reg q := by
  cases h with
  | halt | printRegister | jump | jumpIfEqual_taken | jumpIfEqual_fallThrough | jumpIfNotEqual_taken
  | jumpIfNotEqual_fallThrough | compare => rfl
  | loadImmediate ha | add ha | multiply ha => exact setReg_reg_ne s _ (ne_of_not_names hw ha)
  | ret => exact setReg_reg_ne _ _ hw
  | push | call => exact setReg_reg_ne s _ hw
  | pop ha =>
    obtain ⟨hqa, hq7⟩ := not_or.1 hw
    exact (setReg_reg_ne _ _ hq7).trans (setReg_reg_ne s _ (ne_of_not_names hqa ha))

/-- Another value in a register neither read nor written changes nothing but that register. -/
theorem setReg_of_unread (h : Completes s i t) (hw : ¬ writes i q) (hr : ¬ reads i s q) (v : Byte) :
    Completes (s.setReg q v) i (t.setReg q v) := by
  cases h with
  | halt => exact .halt
  | ret =>
    have hq7 : q ≠ 7 := hr
    simpa [setReg_sp_of_ne s hq7, setPc_setReg, incSp_setReg _ hq7] using ret (s := s.setReg q v)
  | push ha =>
    obtain ⟨hq7, hqa⟩ := not_or.1 hr
    have hne := ne_of_not_names hqa ha
    simpa [decSp_setReg s hq7, setReg_sp_of_ne _ hq7, setReg_reg_ne _ v hne.symm, setCell_setReg, advance_setReg]
      using push (s := s.setReg q v) ha
  | pop ha =>
    obtain ⟨hqa, hq7⟩ := not_or.1 hw
    simpa [setReg_setReg_comm s (ne_of_not_names hqa ha), setReg_sp_of_ne s hq7, incSp_setReg _ hq7, advance_setReg]
      using pop (s := s.setReg q v) ha
  | printRegister ha =>
    simpa [setReg_reg_ne s v (ne_of_not_names hr ha).symm, emit_setReg, advance_setReg]
      using printRegister (s := s.setReg q v) ha
  | call ha =>
    obtain ⟨hq7, hqa⟩ := not_or.1 hr
    simpa [decSp_setReg s hq7, setReg_sp_of_ne _ hq7, returnAddress_setReg, setCell_setReg,
      jumpTo_setReg _ (ne_of_not_names hqa ha)] using call (s := s.setReg q v) ha
  | jump ha => simpa [jumpTo_setReg s (ne_of_not_names hr ha)] using jump (s := s.setReg q v) ha
  | jumpIfEqual_taken ha hE =>
    have hne := ne_of_not_names (fun hq => hr ⟨hE, hq⟩) ha
    simpa [jumpTo_setReg s hne] using jumpIfEqual_taken (s := s.setReg q v) ha hE
  | jumpIfEqual_fallThrough ha hE => exact .jumpIfEqual_fallThrough ha hE
  | jumpIfNotEqual_taken ha hE =>
    have hne := ne_of_not_names (fun hq => hr ⟨hE, hq⟩) ha
    simpa [jumpTo_setReg s hne] using jumpIfNotEqual_taken (s := s.setReg q v) ha hE
  | jumpIfNotEqual_fallThrough ha hE => exact .jumpIfNotEqual_fallThrough ha hE
  | loadImmediate ha =>
    simpa [setReg_setReg_comm s (ne_of_not_names hw ha), advance_setReg] using loadImmediate (s := s.setReg q v) ha
  | add ha hb =>
    obtain ⟨hqa, hqb⟩ := not_or.1 hr
    have hna := ne_of_not_names hqa ha
    have hnb := ne_of_not_names hqb hb
    simpa [setReg_reg_ne s v hna.symm, setReg_reg_ne s v hnb.symm, setReg_setReg_comm s hna, advance_setReg]
      using add (s := s.setReg q v) ha hb
  | multiply ha hb =>
    obtain ⟨hqa, hqb⟩ := not_or.1 hr
    have hna := ne_of_not_names hqa ha
    have hnb := ne_of_not_names hqb hb
    simpa [setReg_reg_ne s v hna.symm, setReg_reg_ne s v hnb.symm, setReg_setReg_comm s hna, advance_setReg]
      using multiply (s := s.setReg q v) ha hb
  | compare ha hb =>
    obtain ⟨hqa, hqb⟩ := not_or.1 hr
    simpa [setReg_reg_ne s v (ne_of_not_names hqa ha).symm, setReg_reg_ne s v (ne_of_not_names hqb hb).symm,
      setFl_setReg, advance_setReg] using compare (s := s.setReg q v) ha hb

/-- The old value of a register written and not read has no influence; LOAD_IMMEDIATE and POP have such a register. -/
theorem setReg_of_overwritten (h : Completes s i t) (hw : writes i q) (hr : ¬ reads i s q) (v : Byte) :
    Completes (s.setReg q v) i t := by
  cases h with
  | loadImmediate ha =>
    obtain rfl := eq_of_names hw ha
    simpa [setReg_setReg_self] using loadImmediate (s := s.setReg q v) ha
  | pop ha =>
    obtain rfl := eq_of_names (hw.resolve_right hr) ha
    simpa [setReg_setReg_self, setReg_sp_of_ne s hr] using pop (s := s.setReg q v) ha
  | halt | printRegister | jump | jumpIfEqual_taken | jumpIfEqual_fallThrough | jumpIfNotEqual_taken
  | jumpIfNotEqual_fallThrough | compare => exact hw.elim
  | ret => exact absurd hw hr
  | push | call | add | multiply => exact absurd (.inl hw) hr

end Completes

/-- An instruction that writes a register it does not read raises on no operand: the only one it has names that
register. -/
theorem noBadOperand_of_overwritten {i : Instr} {s : State} {q : Fin 8} (hw : writes i q) (hr : ¬ reads i s q) :
    firstBadOperand i = none := by
  have hnone {a : Byte} (ha : names a q) : [a].find? (fun b => decide (7 < b.toNat)) = none := by
    have := q.isLt
    simp; omega
  cases i with
  | loadImmediate a v => exact hnone hw
  | pop a => exact hnone (hw.resolve_right hr)
  | halt | printRegister | jump | jumpIfEqual | jumpIfNotEqual | compare => exact hw.elim
  | ret => exact absurd hw hr
  | push | call | add | multiply => exact absurd (.inl hw) hr

/-! ### The execute phase and the bits of `FL` no instruction reads (10_state.md R30) -/

/-- Agreement on `FL.E` is all that the execute phase needs of `FL`; what it leaves there is the same, or left alone. -/
theorem Completes.setFl {s t : State} {i : Instr} (h : Completes s i t) {v : Byte} (hv : v[0] = s.fl[0]) :
    ∃ w, Completes (s.setFl v) i (t.setFl w) ∧ (w = t.fl ∨ (w = v ∧ t.fl = s.fl)) := by
  have hflE : (s.setFl v).flE = s.flE := hv
  cases h with
  | compare ha hb => exact ⟨_, .compare ha hb, .inl rfl⟩
  | halt => exact ⟨v, .halt, .inr ⟨rfl, rfl⟩⟩
  | ret => exact ⟨v, .ret, .inr ⟨rfl, rfl⟩⟩
  | push ha => exact ⟨v, .push ha, .inr ⟨rfl, rfl⟩⟩
  | pop ha => exact ⟨v, .pop ha, .inr ⟨rfl, rfl⟩⟩
  | printRegister ha => exact ⟨v, .printRegister ha, .inr ⟨rfl, rfl⟩⟩
  | call ha => exact ⟨v, .call ha, .inr ⟨rfl, rfl⟩⟩
  | jump ha => exact ⟨v, .jump ha, .inr ⟨rfl, rfl⟩⟩
  | jumpIfEqual_taken ha hE => exact ⟨v, .jumpIfEqual_taken ha (hflE.trans hE), .inr ⟨rfl, rfl⟩⟩
  | jumpIfEqual_fallThrough ha hE => exact ⟨v, .jumpIfEqual_fallThrough ha (hflE.trans hE), .inr ⟨rfl, rfl⟩⟩
  | jumpIfNotEqual_taken ha hE => exact ⟨v, .jumpIfNotEqual_taken ha (hflE.trans hE), .inr ⟨rfl, rfl⟩⟩
  | jumpIfNotEqual_fallThrough ha hE => exact ⟨v, .jumpIfNotEqual_fallThrough ha (hflE.trans hE), .inr ⟨rfl, rfl⟩⟩
  | loadImmediate ha => exact ⟨v, .loadImmediate ha, .inr ⟨rfl, rfl⟩⟩
  | add ha hb => exact ⟨v, .add ha hb, .inr ⟨rfl, rfl⟩⟩
  | multiply ha hb => exact ⟨v, .multiply ha hb, .inr ⟨rfl, rfl⟩⟩

theorem exec_setFl {i : Instr} {s t : State} (h : exec i s = .next t) {v : Byte} (hv : v[0] = s.fl[0]) :
    ∃ w, exec i (s.setFl v) = .next (t.setFl w) ∧ (w = t.fl ∨ (w = v ∧ t.fl = s.fl)) := by
  obtain hc | ⟨b, hb, rfl⟩ := exec_next_cases h
  · obtain ⟨w, hw, hfl⟩ := hc.setFl hv
    exact ⟨w, exec_of_completes hw, hfl⟩
  · exact ⟨v, exec_of_badOperand hb _, .inr ⟨rfl, rfl⟩⟩

end Sys2Proof.Machine
end

/-! ## The decoder and the fetch: what they accept, and why they refuse -/

section
namespace Sys2Proof

theorem Opcode.opcode_instr (o : Opcode) (a b : Byte) : (o.instr a b).opcode = o := by cases o <;> rfl

/-- An opcode takes as many of the two operand bytes as its byte says (R80, R83). -/
theorem Opcode.operands_instr (o : Opcode) (a b : Byte) :
    (o.instr a b).operands = [a, b].take (operandCount o.byte) := by cases o <;> rfl

theorem encode_instr (o : Opcode) (a b : Byte) :
    encode (o.instr a b) = o.byte :: [a, b].take (operandCount o.byte) := by
  rw [encode, o.opcode_instr, o.operands_instr]

/-- Operand bytes 0 pass the register check, so an instruction without operands never fails it. -/
theorem Opcode.instr_zero_wellFormed (o : Opcode) : (o.instr 0 0).wellFormed = true := by cases o <;> rfl

/-- What the decoder accepts is the encoding of a well-formed instruction, with the rest given back (R86, R92). -/
theorem decode_ok {bs rest : List Byte} {i : Instr} (h : decode bs = .ok (i, rest)) :
    i.wellFormed = true ∧ bs = encode i ++ rest := by
  cases bs with
  | nil => cases h
  | cons opc bytes =>
    cases ho : opcodeOf opc with
    | none => simp [decode, ho] at h
    | some o =>
      obtain rfl := opcodeOf_some.1 ho
      simp only [decode, ho] at h
      split at h
      · rename_i hn
        obtain ⟨rfl, rfl, hw⟩ := checkIndices_ok h
        exact ⟨hw, by simp [encode_instr, hn]⟩
      · rename_i hn
        obtain ⟨rfl, rfl, hw⟩ := checkIndices_ok h
        exact ⟨hw, by simp [encode_instr, hn]⟩
      · cases h
      · rename_i h0 h1
        obtain ⟨rfl, rfl, hw⟩ := checkIndices_ok h
        have hn : 2 ≤ operandCount o.byte := (Nat.two_le_iff _).2 ⟨h0, h1⟩
        exact ⟨hw, by simp [encode_instr, List.take_of_length_le, hn]⟩
      · cases h
      · cases h

/-- Why the decoder refuses (R112): the bytes end where byte number `length` should stand, the first byte is unassigned,
or one of the operand bytes, so of at least two bytes, is above 7 in a `reg` role. -/
theorem decode_error {bs : List Byte} {e : Reject} (h : decode bs = .error e) :
    (bs.length ≤ 2 ∧ e = .missingByte bs.length) ∨
    (∃ opc bytes, bs = opc :: bytes ∧ opcodeOf opc = none ∧ e = .invalidOpcode opc) ∨
    (∃ b, 2 ≤ bs.length ∧ 7 < b.toNat ∧ e = .badRegister b) := by
  have hbad {i : Instr} {rest : List Byte} (hc : checkIndices i rest = .error e) :
      ∃ b, 7 < b.toNat ∧ e = .badRegister b := by
    obtain ⟨b, rfl, hb⟩ := checkIndices_error hc
    exact ⟨b, by simpa using List.find?_some hb, rfl⟩
  cases bs with
  | nil => cases h; simp
  | cons opc bytes =>
    cases ho : opcodeOf opc with
    | none =>
      simp only [decode, ho] at h
      cases h
      exact .inr (.inl ⟨opc, bytes, rfl, ho, rfl⟩)
    | some o =>
      simp only [decode, ho] at h
      split at h
      · rw [checkIndices_of_wellFormed o.instr_zero_wellFormed] at h
        cases h
      · obtain ⟨b, hb, rfl⟩ := hbad h
        exact .inr (.inr ⟨b, by simp, hb, rfl⟩)
      · cases h; simp
      · obtain ⟨b, hb, rfl⟩ := hbad h
        exact .inr (.inr ⟨b, by simp, hb, rfl⟩)
      · cases h; simp
      · cases h; simp

theorem decode_halt (rest : List Byte) : decode (Opcode.halt.byte :: rest) = .ok (.halt, rest) := rfl

/-- HALT is the one instruction whose opcode byte is HALT's (R87(b)). -/
theorem opcode_byte_eq_halt_iff {i : Instr} : i.opcode.byte = Opcode.halt.byte ↔ i = .halt := by
  constructor
  · intro h
    have ho : i.opcode = .halt := by simpa [h] using (opcodeOf_byte i.opcode).symm
    cases i <;> cases ho
    rfl
  · rintro rfl
    rfl

namespace Machine

/-- The fetch phase reads memory and `pc` alone (R111). -/
theorem bytesFrom_setFl (n : Nat) (addr : Addr) (s : State) (v : Byte) :
    bytesFrom n addr (s.setFl v) = bytesFrom n addr s := by
  induction n generalizing addr with
  | zero => rfl
  | succ n ih => simp [bytesFrom_succ, ih]

theorem fetchDecode_setFl (s : State) (v : Byte) : fetchDecode (s.setFl v) = fetchDecode s := by
  simp [fetchDecode, bytesFrom_setFl]

theorem bytesFrom_head {n : Nat} {addr : Addr} {s : State} {b : Byte} {bs : List Byte}
    (h : bytesFrom n addr s = b :: bs) : addr.toNat ≤ 255 ∧ s.cell addr.toNat = b := by
  cases n with
  | zero => cases h
  | succ n =>
    rw [bytesFrom_succ] at h
    split at h
    · rename_i ha
      cases h
      exact ⟨ha, rfl⟩
    · cases h

/-- A decoded instruction is well-formed and its encoding stands at `pc`, whole inside memory (R111, R112). -/
theorem fetchDecode_ok {s : State} {i : Instr} (h : fetchDecode s = .ok i) :
    i.wellFormed = true ∧ s.pc.toNat + (encode i).length ≤ 256 ∧ s.cell s.pc.toNat = i.opcode.byte := by
  unfold fetchDecode at h
  split at h
  · rename_i j rest hd
    cases h
    obtain ⟨hw, hb⟩ := decode_ok hd
    have hlen := congrArg List.length hb
    rw [bytesFrom_length, List.length_append] at hlen
    obtain ⟨-, hop⟩ := bytesFrom_head hb
    have hpos : 0 < (encode i).length := by simp [encode]
    exact ⟨hw, by omega, hop⟩
  · cases h

/-- The three ways the fetch and decode phases raise: an operand or opcode byte past memory, an unassigned opcode byte
at `pc`, a register index above 7 among operand bytes that memory still holds (R202, R203, R208). -/
theorem fetchDecode_error {s : State} {e : FatalError} (h : fetchDecode s = .error e) :
    (∃ k, k ≤ 2 ∧ 256 - s.pc.toNat = k ∧ e = .outOfRangeAccess (.mem (s.pc + BitVec.ofNat 9 k))) ∨
    (s.pc.toNat ≤ 255 ∧ opcodeOf (s.cell s.pc.toNat) = none ∧ e = .invalidOpcode (s.cell s.pc.toNat)) ∨
    (∃ b, s.pc.toNat ≤ 254 ∧ 7 < b.toNat ∧ e = .outOfRangeAccess (.reg b)) := by
  have hlen := bytesFrom_length 3 s.pc s
  unfold fetchDecode at h
  split at h
  · cases h
  · rename_i r hd
    cases h
    obtain ⟨hle, rfl⟩ | ⟨opc, bytes, hb, ho, rfl⟩ | ⟨b, h2, hb, rfl⟩ := decode_error hd
    · exact .inl ⟨_, hle, by omega, rfl⟩
    · obtain ⟨hpc, rfl⟩ := bytesFrom_head hb
      exact .inr (.inl ⟨hpc, ho, rfl⟩)
    · exact .inr (.inr ⟨b, by omega, hb, rfl⟩)

theorem fetchDecode_halt {s : State} (hpc : s.pc.toNat ≤ 255) (hop : s.cell s.pc.toNat = Opcode.halt.byte) :
    fetchDecode s = .ok .halt := by
  have hb : bytesFrom 3 s.pc s = Opcode.halt.byte :: bytesFrom 2 (s.pc + 1#9) s := by
    rw [bytesFrom_succ, if_pos hpc, hop]
  simp [fetchDecode, hb, decode_halt]

/-! ## The step -/

/-- The inversion of `step`: a running state runs the instruction that its decode phase accepts, which completes, or
takes the exception of the fetch and decode phases (R110 to R113). -/
theorem step_completes_or_raises {s t : State} (h : step s = .next t) :
    s.status = .running ∧
      ((∃ i, fetchDecode s = .ok i ∧ Completes s i t) ∨ ∃ e, fetchDecode s = .error e ∧ t = raise e s) := by
  obtain ⟨hrun, ⟨i, hi, he⟩ | herr⟩ := step_next_cases h
  · refine ⟨hrun, .inl ⟨i, hi, ?_⟩⟩
    obtain ⟨u, hu⟩ := exists_completes (fetchDecode_ok hi).1 s
    cases (exec_of_completes hu).symm.trans he
    exact hu
  · exact ⟨hrun, .inr herr⟩

/-- A step stops without a next state in the terminal states alone, and says which (R110; log entry 1). -/
theorem step_fault_iff {s : State} {f : Fault} :
    step s = .fault f ↔ (s.status = .halted ∧ f = .machineHalted) ∨ (s.status = .faulted ∧ f = .machineFaulted) := by
  cases hs : s.status with
  | halted => simp [step, hs, eq_comm]
  | faulted => simp [step, hs, eq_comm]
  | running =>
    cases hf : fetchDecode s with
    | ok i =>
      obtain ⟨t, ht⟩ := exec_total i s
      simp [step_of_fetched hs hf, ht]
    | error e => simp [step_of_exception hs hf]

/-! ## The halted flag (10_state.md R32) -/

/-- The halted flag after an execute phase: HALT sets it, every other instruction leaves it (R32). -/
theorem exec_halted {i : Instr} {s t : State} (h : exec i s = .next t) :
    t.halted = (s.halted || decide (i = .halt)) := by
  obtain hc | ⟨b, hb, rfl⟩ := exec_next_cases h
  · exact hc.halted_eq
  · have hne : i ≠ .halt := by rintro rfl; cases hb
    simp [raise, hne]

/-- A step ends halted exactly when the byte at `pc` is HALT's (R32, R118). -/
theorem step_halted_iff {s t : State} (h : step s = .next t) :
    t.halted = true ↔ s.pc.toNat ≤ 255 ∧ s.cell s.pc.toNat = Opcode.halt.byte := by
  obtain ⟨hrun, ⟨i, hi, hc⟩ | ⟨e, he, rfl⟩⟩ := step_completes_or_raises h
  · obtain ⟨-, hfit, hop⟩ := fetchDecode_ok hi
    have hpc : s.pc.toNat ≤ 255 := by
      have : 0 < (encode i).length := by simp [encode]
      omega
    simp [hc.halted_eq, (status_running.1 hrun).1, hpc, hop, opcode_byte_eq_halt_iff]
  · have hhalted : (raise e s).halted = false := (status_running.1 hrun).1
    have hnot : ¬ (s.pc.toNat ≤ 255 ∧ s.cell s.pc.toNat = Opcode.halt.byte) := by
      rintro ⟨hpc, hop⟩
      cases he.symm.trans (fetchDecode_halt hpc hop)
    simp [hhalted, hnot]

/-! ## The invariant -/

theorem zext9_le (v : Byte) : (zext9 v).toNat ≤ 256 := by
  have := v.isLt
  rw [zext9_toNat]
  omega

theorem flLegal_cmp8 (p q : Byte) : flLegal (cmp8 p q) := .inr (cmp8_cases p q)

/-- What the fetch and decode phases raise is a situation of R202 or R203. -/
theorem faultLegal_of_fetchDecode_error {s : State} {e : FatalError} (hpc : s.pc.toNat ≤ 256)
    (h : fetchDecode s = .error e) : s.faultLegal { error := e, fpc := s.pc } := by
  obtain ⟨k, hk, hend, rfl⟩ | ⟨hle, hop, rfl⟩ | ⟨b, hle, hb, rfl⟩ := fetchDecode_error h
  · have haddr : (s.pc + BitVec.ofNat 9 k).toNat = 256 := by
      simp only [BitVec.toNat_add, BitVec.toNat_ofNat]
      omega
    exact ⟨haddr, by simp only; omega, hpc⟩
  · exact ⟨hle, rfl, hop⟩
  · exact ⟨hb, hle⟩

/-- A completed execute phase of an instruction that lies inside memory keeps the invariant. -/
theorem State.Inv.of_completes {s t : State} {i : Instr} (hs : s.Inv) (hfault : s.fault = none)
    (hfit : s.pc.toNat + (encode i).length ≤ 256) (h : Completes s i t) : t.Inv where
  memWf := by
    obtain hm | ⟨a, v, hm⟩ := h.mem_cases
    · exact hm ▸ hs.memWf
    · exact hm ▸ Memory.wf_set hs.memWf a.isLt v
  flags := by
    obtain ⟨-, p, q, hfl⟩ | ⟨-, hfl⟩ := h.fl_cases
    · exact hfl ▸ flLegal_cmp8 p q
    · exact hfl ▸ hs.flags
  pcBound := by
    obtain hpc | ⟨v, hpc⟩ := h.pc_cases
    · rw [hpc, BitVec.toNat_add, BitVec.toNat_ofNat]
      omega
    · exact hpc ▸ zext9_le v
  exclusive _ := h.fault_eq.trans hfault
  record f hf := by simp [h.fault_eq, hfault] at hf

/-- Taking a legal exception in a state that is not halted keeps the invariant (R206). -/
theorem State.Inv.raise {s : State} {e : FatalError} (hs : s.Inv) (hhalted : s.halted = false)
    (he : s.faultLegal { error := e, fpc := s.pc }) : (Machine.raise e s).Inv where
  memWf := hs.memWf
  flags := hs.flags
  pcBound := hs.pcBound
  exclusive hh := by cases hhalted.symm.trans hh
  record := by rintro _ ⟨⟩; exact ⟨rfl, he⟩

theorem State.Inv.step {s t : State} (hs : s.Inv) (h : Machine.step s = .next t) : t.Inv := by
  obtain ⟨hrun, ⟨i, hi, hc⟩ | ⟨e, he, rfl⟩⟩ := step_completes_or_raises h
  · obtain ⟨-, hfit, -⟩ := fetchDecode_ok hi
    exact hs.of_completes (status_running.1 hrun).2 hfit hc
  · exact hs.raise (status_running.1 hrun).1 (faultLegal_of_fetchDecode_error hs.pcBound he)

/-! ## The image in memory -/

/-- The cells of an image placed from `a` up: its bytes, then the fill byte (R241). -/
theorem Memory.cell_ofImage {a : Nat} {bs : List Byte} (h : a + bs.length ≤ Config.memSize) (k : Nat) :
    Memory.cell (Memory.ofImage a bs) (a + k) = bs.getD k Config.memFill := by
  induction bs generalizing a k with
  | nil => rfl
  | cons b bs ih =>
    have hfit : a + 1 + bs.length ≤ Config.memSize := by
      simp only [List.length_cons] at h
      omega
    rw [Memory.ofImage, Memory.cell_cons (Memory.wfFrom_ofImage (a + 1) bs hfit) (Nat.lt_succ_self a)]
    cases k with
    | zero => simp
    | succ k => simpa [Nat.add_assoc, Nat.add_comm 1 k] using ih hfit k

theorem boot_next_iff {img : List Byte} {s : State} :
    boot img = .next s ↔
      img.length ≤ Config.imgMax ∧ s = { State.reset with mem := Memory.ofImage Config.imgBase img } := by
  unfold boot
  split <;> simp_all [eq_comm]

end Machine
end Sys2Proof
end

/-! ## The statements of 10_state.md -/

section
open Sys2Proof Sys2Proof.Machine Sys2Proof.Spec

namespace Sys2Proof.Proofs

/-- Settles O37: a state and the same state with another `FL` that agrees on `E` fetch the same bytes, and the execute
phase needs no other bit of `FL`. -/
theorem onlyTheEqualFlagIsRead : Obligations.OnlyTheEqualFlagIsRead := by
  intro s v hv
  have hstatus : (s.setFl v).status = s.status := rfl
  refine ⟨fun t h => ?_, fun f h => ?_⟩
  · change ∃ w, step (s.setFl v) = .next (t.setFl w) ∧ _
    obtain ⟨hrun, ⟨i, hi, he⟩ | ⟨e, he, rfl⟩⟩ := step_next_cases h
    · rw [step_of_fetched (hstatus.trans hrun) ((fetchDecode_setFl s v).trans hi)]
      exact exec_setFl he hv
    · exact ⟨v, step_of_exception (hstatus.trans hrun) ((fetchDecode_setFl s v).trans he), .inr ⟨rfl, rfl⟩⟩
  · change step (s.setFl v) = .fault f
    rw [step_fault_iff] at h
    exact step_fault_iff.2 h

/-- Settles O46: a completed execute phase keeps each clause by its frame, and what the fetch and decode phases raise is
a legal record. -/
theorem invariantKeptByStep : Obligations.InvariantKeptByStep := fun _ _ hs h => hs.step h

/-- Settles O2: `boot` leaves the reset values, and cell 0 holds the first byte of the image. -/
theorem executionStartsAtAddressZero : Obligations.ExecutionStartsAtAddressZero := by
  intro img s h
  obtain ⟨hlen, rfl⟩ := boot_next_iff.1 h
  refine ⟨rfl, rfl, ?_⟩
  rintro b bs rfl
  have hcell := Memory.cell_ofImage (a := 0) (bs := b :: bs) (by simpa [Config.memSize, Config.imgMax] using hlen) 0
  exact memRead_ok_iff.2 ⟨Nat.zero_le 255, hcell⟩

/-- Settles O22: by the frame of a completed execute phase, register by register; a term that raises writes none. -/
theorem registersReadAndWritten : Obligations.RegistersReadAndWritten := by
  intro i s t h q
  obtain hc | ⟨b, hb, rfl⟩ := exec_next_cases h
  · exact ⟨hc.reg_of_not_writes, fun hr v =>
      ⟨fun hw => exec_of_completes (hc.setReg_of_unread hw hr v),
       fun hw => exec_of_completes (hc.setReg_of_overwritten hw hr v)⟩⟩
  · refine ⟨fun _ => rfl, fun hr v => ⟨fun _ => exec_of_badOperand hb _, fun hw => ?_⟩⟩
    cases hb.symm.trans (noBadOperand_of_overwritten hw hr)

/-- Settles O23: a completed COMPARE leaves what `cmp8` answers; any other completed instruction, and one that raises,
leaves `FL` alone. -/
theorem flagsWrittenByCompareOnly : Obligations.FlagsWrittenByCompareOnly := by
  intro i s t h
  obtain hc | ⟨b, hb, rfl⟩ := exec_next_cases h
  · obtain ⟨hcmp, p, q, hfl⟩ | ⟨hcmp, hfl⟩ := hc.fl_cases
    · exact ⟨fun _ => hfl ▸ cmp8_cases p q, fun hn => absurd ⟨hcmp, hc.wellFormed⟩ hn⟩
    · exact ⟨fun hy => absurd hy.1 hcmp, fun _ => hfl⟩
  · refine ⟨fun ⟨_, hw⟩ => ?_, fun _ => rfl⟩
    cases hb.symm.trans (wellFormed_iff_no_badOperand.1 hw)

/-- Settles O24: HALT is the one writer of the flag, and a step starts from a running state, where the flag is 0. -/
theorem haltedFlagSetByHaltOnly : Obligations.HaltedFlagSetByHaltOnly := by
  have hclear {s t : State} (h : step s = .next t) : s.halted = false := (status_running.1 (step_next_cases h).1).1
  refine ⟨rfl, fun _ _ _ => exec_halted, fun _ _ h => ⟨hclear h, step_halted_iff h⟩, fun s hs t h => ?_⟩
  cases hs.symm.trans (hclear h)

/-- Settles O1: each component is a value `State.reset` writes out; the empty memory reads the fill byte everywhere. -/
theorem resetValues : Obligations.ResetValues := ⟨rfl, rfl, rfl, rfl, rfl, fun _ => rfl, rfl, rfl⟩

/-- Settles O45: the reset values meet each clause, and there is no fault record. -/
theorem invariantAtReset : Obligations.InvariantAtReset where
  memWf := Memory.reset_wf
  flags := .inl rfl
  pcBound := by decide
  exclusive _ := rfl
  record := by rintro _ ⟨⟩

end Sys2Proof.Proofs
end

/-! ## Memory as data, and what a completed execute phase stores (20_memory.md R50 to R61) -/

section
open Sys2Proof.Spec

namespace Sys2Proof.Machine

/-- Past memory nothing is written and the access raises (R52). -/
theorem memWrite_of_gt {addr : Addr} (h : 255 < addr.toNat) (v : Byte) (s : State) :
    memWrite addr v s = .error (.outOfRangeAccess (.mem addr)) :=
  if_neg (Nat.not_lt.2 h)

/-- A read after a write: the byte written at its address, the old byte at every other (R52, R61). -/
theorem memRead_setCell {s : State} (hm : s.mem.wf = true) {addr : Addr} (ha : addr.toNat ≤ 255) (v : Byte)
    (b : Addr) : memRead b (s.setCell addr.toNat v) = if b = addr then .ok v else memRead b s := by
  by_cases hb : b = addr
  · subst hb
    simp [memRead_eq, ha, setCell_cell hm]
  · have hne : addr.toNat ≠ b.toNat := fun e => hb (BitVec.eq_of_toNat_eq e.symm)
    simp [memRead_eq, hb, setCell_cell hm, hne]

theorem Memory.wfFrom_cons_iff {lo k : Nat} {w : Byte} {m : Memory} :
    Memory.wfFrom lo ((k, w) :: m) = true ↔
      lo ≤ k ∧ k < Config.memSize ∧ w ≠ Config.memFill ∧ Memory.wfFrom (k + 1) m = true := by
  simp [Memory.wfFrom, and_assoc]

theorem Memory.cell_head (k : Nat) (w : Byte) (m : Memory) : Memory.cell ((k, w) :: m) k = w := if_pos rfl

theorem Memory.cell_tail {k a : Nat} (h : k ≠ a) (w : Byte) (m : Memory) :
    Memory.cell ((k, w) :: m) a = Memory.cell m a := if_neg h

/-- A canonical memory starts at its lowest cell that does not hold the fill byte. -/
theorem Memory.head_le {lo k a : Nat} {w : Byte} {m : Memory} (h : Memory.wfFrom lo ((k, w) :: m) = true)
    (ha : Memory.cell ((k, w) :: m) a ≠ Config.memFill) : k ≤ a := by
  obtain ⟨-, hk, hw, hm⟩ := Memory.wfFrom_cons_iff.1 h
  have hfrom : Memory.wfFrom k ((k, w) :: m) = true := Memory.wfFrom_cons_iff.2 ⟨le_refl k, hk, hw, hm⟩
  exact Nat.not_lt.1 fun hlt => ha (Memory.cell_below hfrom hlt)

/-- Canonical memories that read alike start with the same cell, and so on along both lists (log entry 4). -/
theorem Memory.eq_of_cell_eq {lo : Nat} {m n : Memory} (hm : Memory.wfFrom lo m = true)
    (hn : Memory.wfFrom lo n = true) (h : ∀ a < Config.memSize, Memory.cell m a = Memory.cell n a) : m = n := by
  induction m generalizing lo n with
  | nil =>
    cases n with
    | nil => rfl
    | cons c n =>
      obtain ⟨k, w⟩ := c
      obtain ⟨-, hk, hw, -⟩ := Memory.wfFrom_cons_iff.1 hn
      exact absurd ((h k hk).trans (Memory.cell_head k w n)).symm hw
  | cons c m ih =>
    obtain ⟨k, w⟩ := c
    obtain ⟨-, hk, hw, hm'⟩ := Memory.wfFrom_cons_iff.1 hm
    cases n with
    | nil => exact absurd ((Memory.cell_head k w m).symm.trans (h k hk)) hw
    | cons d n =>
      obtain ⟨l, v⟩ := d
      obtain ⟨-, hl, hv, hn'⟩ := Memory.wfFrom_cons_iff.1 hn
      have hkl : k = l := Nat.le_antisymm
        (Memory.head_le hm (by rw [h l hl, Memory.cell_head]; exact hv))
        (Memory.head_le hn (by rw [← h k hk, Memory.cell_head]; exact hw))
      subst hkl
      have hwv : w = v := by simpa [Memory.cell_head] using h k hk
      subst hwv
      have htail : ∀ a < Config.memSize, Memory.cell m a = Memory.cell n a := by
        intro a ha
        by_cases hka : k = a
        · subst hka
          rw [Memory.cell_below hm' (Nat.lt_succ_self k), Memory.cell_below hn' (Nat.lt_succ_self k)]
        · simpa [Memory.cell_tail hka] using h a ha
      rw [ih hm' hn' htail]

namespace Completes

variable {s t : State} {i : Instr}

/-- PUSH and CALL store at `storeAddress` and nowhere else; no other instruction stores (R54, R160). -/
theorem cell_of_ne_storeAddress (h : Completes s i t) {x : Nat} (hx : storeAddress i s ≠ some x) :
    t.cell x = s.cell x := by
  cases h with
  | push | call =>
    have hne : s.decSp.sp.toNat ≠ x := fun e => hx (by rw [← e, ← zext9_toNat]; rfl)
    exact Memory.cell_set_ne s.mem hne _
  | halt | ret | pop | printRegister | jump | jumpIfEqual_taken | jumpIfEqual_fallThrough | jumpIfNotEqual_taken
  | jumpIfNotEqual_fallThrough | loadImmediate | add | multiply | compare => rfl

/-- Only HALT changes the status when an execute phase completes (R32, R34). -/
theorem status_eq (h : Completes s i t) (hi : i ≠ .halt) : t.status = s.status := by
  simp [State.status, h.halted_eq, h.fault_eq, hi]

end Completes

end Sys2Proof.Machine
end

/-! ## The fetch of an instruction whose bytes stand at `pc` (40_cycle_and_system.md R111, R112) -/

section
open Sys2Proof.Spec

namespace Sys2Proof

/-- Decoding undoes encoding: the opcode byte counts the operand bytes to take (R80, R83, R95). -/
theorem decode_encode {i : Instr} (h : i.wellFormed = true) (rest : List Byte) :
    decode (encode i ++ rest) = .ok (i, rest) := by
  simp only [encode, List.cons_append, decode, opcodeOf_byte, operandCount_opcode]
  cases i <;> exact checkIndices_of_wellFormed h rest

/-- The assigned bytes are those of the opcodes (R89; D1). -/
theorem Opcode.byte_mem_assigned (o : Opcode) : o.byte ∈ assigned := by cases o <;> decide

theorem opcodeOf_none_of_not_assigned {b : Byte} (h : b ∉ assigned) : opcodeOf b = none := by
  cases ho : opcodeOf b with
  | none => rfl
  | some o => exact absurd (opcodeOf_some.1 ho ▸ o.byte_mem_assigned) h

namespace Machine

/-- Bytes that stand at `pc` are the first ones fetched. -/
theorem bytesFrom_of_codeAt {s : State} {bs : List Byte} {n : Nat} (h : codeAt s bs) (hn : bs.length ≤ n) :
    ∃ rest, bytesFrom n s.pc s = bs ++ rest := by
  obtain ⟨hfit, hcells⟩ := h
  have htake : (bytesFrom n s.pc s).take bs.length = bs := by
    refine List.ext_getElem ?_ fun k _ hk => ?_
    · rw [List.length_take, bytesFrom_length]
      omega
    · rw [List.getElem_take, bytesFrom_getElem, hcells k hk]
  refine ⟨(bytesFrom n s.pc s).drop bs.length, ?_⟩
  calc bytesFrom n s.pc s
      = (bytesFrom n s.pc s).take bs.length ++ (bytesFrom n s.pc s).drop bs.length :=
        (List.take_append_drop _ _).symm
    _ = bs ++ (bytesFrom n s.pc s).drop bs.length := by rw [htake]

/-- A well-formed instruction whose encoding stands at `pc` is what the fetch and decode phases give. -/
theorem fetchDecode_of_codeAt {s : State} {i : Instr} (hw : i.wellFormed = true) (h : codeAt s (encode i)) :
    fetchDecode s = .ok i := by
  have hlen : (encode i).length ≤ 3 := by cases i <;> simp [encode, Instr.operands]
  obtain ⟨rest, hb⟩ := bytesFrom_of_codeAt h hlen
  simp [fetchDecode, hb, decode_encode hw]

/-- An unassigned byte at `pc` is refused as an opcode, before any operand byte is looked at (R90, R203; D12). -/
theorem fetchDecode_unassigned {s : State} (hpc : s.pc.toNat ≤ 255) (h : s.cell s.pc.toNat ∉ assigned) :
    fetchDecode s = .error (.invalidOpcode (s.cell s.pc.toNat)) := by
  have hb : bytesFrom 3 s.pc s = s.cell s.pc.toNat :: bytesFrom 2 (s.pc + 1#9) s := by
    rw [bytesFrom_succ, if_pos hpc]
  simp [fetchDecode, hb, decode, opcodeOf_none_of_not_assigned h, exceptionOf]

theorem step_unassigned {s : State} (hrun : s.status = .running) (hpc : s.pc.toNat ≤ 255)
    (h : s.cell s.pc.toNat ∉ assigned) : step s = .next (raised s (.invalidOpcode (s.cell s.pc.toNat))) :=
  step_of_exception hrun (fetchDecode_unassigned hpc h)

theorem step_halt {s : State} (hrun : s.status = .running) (hpc : s.pc.toNat ≤ 255)
    (h : s.cell s.pc.toNat = Opcode.halt.byte) : step s = .next (s.setHalted.advance 1) :=
  (step_of_fetched hrun (fetchDecode_halt hpc h)).trans (exec_of_completes .halt)

/-- The step at a PUSH whose two bytes lie inside memory and whose operand names a register: PUSH completes. -/
theorem step_push {s : State} {r : Fin 8} (hrun : s.status = .running) (hpc : s.pc.toNat ≤ 254)
    (hop : s.cell s.pc.toNat = Opcode.push.byte) (hr : names (s.cell (s.pc.toNat + 1)) r) :
    step s = .next ((s.decSp.setCell s.decSp.sp.toNat (s.decSp.reg r)).advance 2) := by
  have hc : Completes s (.push (s.cell (s.pc.toNat + 1))) _ := .push hr
  have hcode : codeAt s (encode (.push (s.cell (s.pc.toNat + 1)))) := by
    refine ⟨by simp [encode, Instr.operands]; omega, fun k hk => ?_⟩
    match k, hk with
    | 0, _ => exact hop
    | 1, _ => rfl
  rw [step_of_fetched hrun (fetchDecode_of_codeAt hc.wellFormed hcode), exec_of_completes hc]

end Machine
end Sys2Proof
end

/-! ## The statements of 20_memory.md -/

section
open Sys2Proof Sys2Proof.Machine Sys2Proof.Spec

namespace Sys2Proof.Proofs

/-- Settles O6: the write is `setCell`, whose reads `memRead_setCell` gives. -/
theorem memWriteThenRead : Obligations.MemWriteThenRead := by
  intro addr v s hm
  refine ⟨fun h => memWrite_of_gt h v s, fun h => ⟨s.setCell addr.toNat v, memWrite_ok_iff.2 ⟨h, rfl⟩, ?_, ?_, rfl⟩⟩
  · rw [memRead_setCell hm h, if_pos rfl]
  · intro b hb
    rw [memRead_setCell hm h, if_neg hb]

/-- Settles O7: by induction along both lists, which start at the lowest cell that is not the fill byte. -/
theorem canonicalMemoryIsExtensional : Obligations.CanonicalMemoryIsExtensional :=
  fun _ _ hm hn h => Memory.eq_of_cell_eq hm hn h

/-- Settles O26: a completed execute phase stores at `storeAddress` alone, and one that raises keeps memory. -/
theorem memoryFrame : Obligations.MemoryFrame := by
  intro i s t h
  obtain hc | ⟨b, -, rfl⟩ := exec_next_cases h
  · refine ⟨fun x hx => hc.cell_of_ne_storeAddress hx, fun hw => ?_⟩
    cases hw.symm.trans hc.wellFormed
  · exact ⟨fun _ _ => rfl, fun _ _ => rfl⟩

/-- Settles O38: after the PUSH `pc` stands at the cell it stored to, so the next fetch reads the byte pushed. -/
theorem storeIsSeenByTheNextFetch : Obligations.StoreIsSeenByTheNextFetch := by
  intro s t r hm hstep hop hr hr7 hsp
  have hpc : s.pc.toNat + 2 ≤ 255 := by
    have := (s.sp - 1#8).isLt
    omega
  obtain ⟨hrun, -⟩ := step_next_cases hstep
  have ht := Host.Outcome.next.inj (hstep.symm.trans (step_push hrun (by omega) hop hr))
  have htrun : t.status = .running := by rw [ht, (Completes.push hr).status_eq (by simp), hrun]
  have htpc : t.pc.toNat = s.pc.toNat + 2 := by
    rw [ht, advance_pc, setCell_pc, decSp_pc, BitVec.toNat_add, BitVec.toNat_ofNat]
    omega
  have hcell : t.cell t.pc.toNat = s.reg r := by
    rw [htpc, ← hsp, ht, advance_cell, setCell_cell (s := s.decSp) hm, decSp_sp, if_pos rfl, decSp_reg, if_neg hr7]
  have htfit : t.pc.toNat ≤ 255 := by omega
  rw [← hcell]
  exact ⟨memRead_ok_iff.2 ⟨htfit, rfl⟩, step_unassigned htrun htfit, fun h => ⟨_, step_halt htrun htfit h, rfl⟩⟩

/-- Settles O5: the two branches of `memRead`. -/
theorem memReadContract : Obligations.MemReadContract :=
  fun _ _ => ⟨fun h => memRead_error_iff.2 ⟨h, rfl⟩, fun h => memRead_ok_iff.2 ⟨h, rfl⟩⟩

end Sys2Proof.Proofs
end

/-! ## The opcode map (30_encoding.md R87 to R89) -/

section
open Sys2Proof.Spec

namespace Sys2Proof

theorem Opcode.mem_all (o : Opcode) : o ∈ Opcode.all := by cases o <;> decide

/-- Two opcodes never share a byte: the opcode map reads each of them back (R87(b)). -/
theorem Opcode.byte_injective {o p : Opcode} (h : o.byte = p.byte) : o = p :=
  Option.some.inj (by rw [← opcodeOf_byte o, h, opcodeOf_byte])

/-- The list of R89 is the column of bytes of the table of R88, row by row (D1). -/
theorem assigned_eq_map_byte : assigned = Opcode.all.map Opcode.byte := rfl

theorem mem_assigned_iff {b : Byte} : b ∈ assigned ↔ ∃ o : Opcode, opcodeOf b = some o := by
  simp only [assigned_eq_map_byte, List.mem_map, Opcode.mem_all, true_and, opcodeOf_some, eq_comm (a := b)]

end Sys2Proof
end

/-! ## The statements of 30_encoding.md -/

section
open Sys2Proof Sys2Proof.Machine Sys2Proof.Spec

namespace Sys2Proof.Proofs

/-- Settles O40: the opcode byte tells how many operand bytes to take, and the register check passes. -/
theorem decodeOfEncode : Obligations.DecodeOfEncode := fun _ rest hw => decode_encode hw rest

/-- Settles O41: along the branches of `decode`, each of which takes an opcode's byte and its operands. -/
theorem decodedBytesAreTheEncoding : Obligations.DecodedBytesAreTheEncoding := fun _ _ _ h => decode_ok h

/-- Settles O21: the execute phase stops at the first register operand above 7, which well-formedness excludes. -/
theorem badRegisterOperandRaises : Obligations.BadRegisterOperandRaises := by
  intro i s b hbad
  refine ⟨Bool.eq_false_iff.2 fun hw => ?_, exec_of_badOperand hbad s⟩
  have hnone : firstBadOperand i = none := wellFormed_iff_no_badOperand.1 hw
  cases hbad.symm.trans hnone

/-- Settles O30: the decode phase refuses the byte at `pc` before it looks at any other. -/
theorem unassignedOpcodeRaises : Obligations.UnassignedOpcodeRaises := fun _ hrun hpc h => step_unassigned hrun hpc h

/-- Settles O42: the operand counts by evaluation, the other constraints because the opcode map inverts `Opcode.byte`. -/
theorem opcodeMapConstraints : Obligations.OpcodeMapConstraints := by
  refine ⟨⟨?_, ?_, ?_⟩, fun _ _ h => Opcode.byte_injective h, opcodeOf_none_of_not_assigned ?_, rfl,
    fun o => ⟨o.mem_all, opcodeOf_byte o⟩, fun _ _ h => opcodeOf_some.1 h⟩
  all_goals decide

/-- Settles O43: both sides say that the byte is some opcode's. -/
theorem assignedByteValues : Obligations.AssignedByteValues :=
  fun _ => Option.isSome_iff_exists.trans mem_assigned_iff.symm

/-- Settles O44: each accepted word is the encoding of its instruction, and no opcode has the byte `0xFF`. -/
theorem writtenWordsDecode : Obligations.WrittenWordsDecode :=
  ⟨decode_encode (i := .halt) rfl [], decode_encode (i := .loadImmediate 0x00#8 0x08#8) rfl [],
    decode_encode (i := .multiply 0x00#8 0x01#8) rfl [], decode_encode (i := .printRegister 0x00#8) rfl [],
    decode_encode (i := .pop 0x02#8) rfl [], decode_encode (i := .jumpIfNotEqual 0x03#8) rfl [], rfl⟩

end Sys2Proof.Proofs
end

/-! ## The execute phase and the output history (40_cycle_and_system.md R120, R121) -/

section
open Sys2Proof.Spec

namespace Sys2Proof.Machine

theorem emitted_printRegister {a : Byte} {r : Fin 8} (h : names a r) (s : State) :
    emitted (.printRegister a) s = [s.reg r] := by
  have hlt : a.toNat < 8 := h ▸ r.isLt
  have hr : ⟨a.toNat, hlt⟩ = r := Fin.ext h
  exact (dif_pos hlt).trans (by rw [hr])

theorem emitted_eq_nil {i : Instr} (h : ¬ ∃ a, i = .printRegister a) (s : State) : emitted i s = [] := by
  cases i with
  | printRegister a => exact absurd ⟨a, rfl⟩ h
  | halt | ret | push | pop | call | jump | jumpIfEqual | jumpIfNotEqual | loadImmediate | add | multiply | compare =>
    rfl

/-- A PRINT_REGISTER that raises emits nothing. -/
theorem emitted_of_badOperand {i : Instr} {b : Byte} (h : firstBadOperand i = some b) (s : State) :
    emitted i s = [] := by
  by_cases hp : ∃ a, i = .printRegister a
  · obtain ⟨a, rfl⟩ := hp
    obtain ⟨ha, -⟩ : 7 < a.toNat ∧ a = b := by simpa [firstBadOperand, Instr.regOperands] using h
    exact dif_neg (by omega)
  · exact emitted_eq_nil hp s

/-- An instruction completes alike whatever `OUT` holds, and what it emits is appended to that. -/
theorem Completes.append_out {s t : State} {i : Instr} (h : Completes s i t) (o : List Byte) :
    Completes { s with out := o } i { t with out := o ++ emitted i s } := by
  by_cases hp : ∃ a, i = .printRegister a
  · obtain ⟨a, rfl⟩ := hp
    cases h with
    | printRegister ha => rw [emitted_printRegister ha]; exact .printRegister ha
  · rw [emitted_eq_nil hp, List.append_nil]
    cases h with
    | printRegister => exact absurd ⟨_, rfl⟩ hp
    | halt => exact .halt
    | ret => exact .ret
    | push ha => exact .push ha
    | pop ha => exact .pop ha
    | call ha => exact .call ha
    | jump ha => exact .jump ha
    | jumpIfEqual_taken ha hE => exact .jumpIfEqual_taken ha hE
    | jumpIfEqual_fallThrough ha hE => exact .jumpIfEqual_fallThrough ha hE
    | jumpIfNotEqual_taken ha hE => exact .jumpIfNotEqual_taken ha hE
    | jumpIfNotEqual_fallThrough ha hE => exact .jumpIfNotEqual_fallThrough ha hE
    | loadImmediate ha => exact .loadImmediate ha
    | add ha hb => exact .add ha hb
    | multiply ha hb => exact .multiply ha hb
    | compare ha hb => exact .compare ha hb

theorem exec_append_out {i : Instr} {s t : State} (h : exec i s = .next t) (o : List Byte) :
    exec i { s with out := o } = .next { t with out := o ++ emitted i s } := by
  obtain hc | ⟨b, hb, rfl⟩ := exec_next_cases h
  · exact exec_of_completes (hc.append_out o)
  · rw [emitted_of_badOperand hb, List.append_nil]
    exact exec_of_badOperand hb _

/-- With the history it already has, `exec` answers one next state, and that one has the emitted byte appended. -/
theorem exec_out {i : Instr} {s t : State} (h : exec i s = .next t) : t.out = s.out ++ emitted i s :=
  congrArg State.out (Host.Outcome.next.inj (h.symm.trans (exec_append_out h s.out)))

end Sys2Proof.Machine
end

/-! ## The decode phase as the written-out procedure of R111 and R112 -/

section
open Sys2Proof.Spec

namespace Sys2Proof.Machine

/-- A sub-step that raises ends the phase. -/
theorem error_bind {α β : Type} (e : FatalError) (f : α → Except FatalError β) :
    (Except.error e >>= f) = .error e := rfl

/-- Steps 4 and 5 of R112 as they end the decode phase: the first register operand above 7 raises, or the instruction
goes on to the execute phase. -/
def checkOperands (i : Instr) : Except FatalError Instr :=
  match firstBadOperand i with
  | some b => .error (.outOfRangeAccess (.reg b))
  | none => .ok i

theorem checkOperands_of_wellFormed {i : Instr} (h : i.wellFormed = true) : checkOperands i = .ok i := by
  simp [checkOperands, wellFormed_iff_no_badOperand.1 h]

theorem checkOperands_one {i : Instr} {a : Byte} (h : i.regOperands = [a]) :
    checkOperands i = if 7 < a.toNat then .error (.outOfRangeAccess (.reg a)) else .ok i := by
  by_cases ha : 7 < a.toNat <;> simp [checkOperands, firstBadOperand, h, ha]

theorem checkOperands_two {i : Instr} {a b : Byte} (h : i.regOperands = [a, b]) :
    checkOperands i =
      if 7 < a.toNat then .error (.outOfRangeAccess (.reg a))
      else if 7 < b.toNat then .error (.outOfRangeAccess (.reg b)) else .ok i := by
  by_cases ha : 7 < a.toNat
  · simp [checkOperands, firstBadOperand, h, ha]
  · by_cases hb : 7 < b.toNat <;> simp [checkOperands, firstBadOperand, h, ha, hb]

/-- The decoder's register check, with its rejection turned into the exception, is `checkOperands`. -/
theorem fetchDecode_of_checkIndices {s : State} {i : Instr} {rest : List Byte}
    (h : decode (bytesFrom 3 s.pc s) = checkIndices i rest) : fetchDecode s = checkOperands i := by
  unfold fetchDecode
  rw [h]
  cases hc : checkIndices i rest with
  | ok p =>
    obtain ⟨hi, -, hw⟩ := checkIndices_ok (j := p.1) (rest' := p.2) hc
    simp [hi, checkOperands_of_wellFormed hw]
  | error e =>
    obtain ⟨b, rfl, hb⟩ := checkIndices_error hc
    simp [checkOperands, firstBadOperand, hb, exceptionOf]

/-- Nothing is fetched past memory, and `pc` does not wrap (R111; D7). -/
theorem fetchDecode_outside {s : State} (h : 255 < s.pc.toNat) :
    fetchDecode s = .error (.outOfRangeAccess (.mem s.pc)) := by
  simp [fetchDecode, bytesFrom_outside h, decode, exceptionOf]

theorem bytesFrom_of_read {n : Nat} {addr : Addr} {s : State} {b : Byte} (h : memRead addr s = .ok b) :
    bytesFrom (n + 1) addr s = b :: bytesFrom n (addr + 1#9) s := by
  rw [bytesFrom, h]

theorem fetchDecode_of_error {s : State} {r : Reject} (h : decode (bytesFrom 3 s.pc s) = .error r) :
    fetchDecode s = .error (exceptionOf s.pc r) := by
  simp [fetchDecode, h]

section
variable {s : State} {o : Opcode} (hop : memRead s.pc s = .ok o.byte)
include hop

theorem fetchDecode_zero_operands (hn : operandCount o.byte = 0) : fetchDecode s = .ok (o.instr 0 0) := by
  rw [← checkOperands_of_wellFormed o.instr_zero_wellFormed]
  refine fetchDecode_of_checkIndices (rest := bytesFrom 2 (s.pc + 1#9) s) ?_
  simp [bytesFrom_of_read hop, decode, hn]

theorem fetchDecode_one_operand (hn : operandCount o.byte = 1) :
    fetchDecode s = memRead (s.pc + 1#9) s >>= fun a => checkOperands (o.instr a 0) := by
  cases ha : memRead (s.pc + 1#9) s with
  | ok a =>
    refine fetchDecode_of_checkIndices (rest := bytesFrom 1 (s.pc + 1#9 + 1#9) s) ?_
    simp [bytesFrom_of_read hop, bytesFrom_of_read ha, decode, hn]
  | error e =>
    obtain ⟨hend, rfl⟩ := memRead_error_iff.1 ha
    refine fetchDecode_of_error (r := .missingByte 1) ?_
    simp [bytesFrom_of_read hop, bytesFrom_outside hend, decode, hn]

theorem fetchDecode_two_operands (hn : operandCount o.byte = 2) :
    fetchDecode s = memRead (s.pc + 1#9) s >>= fun a => memRead (s.pc + 2#9) s >>= fun b =>
      checkOperands (o.instr a b) := by
  have hpc : s.pc + 1#9 + 1#9 = s.pc + 2#9 := BitVec.add_assoc _ _ _
  cases ha : memRead (s.pc + 1#9) s with
  | ok a =>
    rw [ok_bind]
    cases hb : memRead (s.pc + 2#9) s with
    | ok b =>
      refine fetchDecode_of_checkIndices (rest := bytesFrom 0 (s.pc + 2#9 + 1#9) s) ?_
      simp [bytesFrom_of_read hop, bytesFrom_of_read ha, hpc, bytesFrom_of_read hb, decode, hn]
    | error e =>
      obtain ⟨hend, rfl⟩ := memRead_error_iff.1 hb
      refine fetchDecode_of_error (r := .missingByte 2) ?_
      simp [bytesFrom_of_read hop, bytesFrom_of_read ha, hpc, bytesFrom_outside hend, decode, hn]
  | error e =>
    obtain ⟨hend, rfl⟩ := memRead_error_iff.1 ha
    refine fetchDecode_of_error (r := .missingByte 1) ?_
    simp [bytesFrom_of_read hop, bytesFrom_outside hend, decode, hn]

/-- With an assigned opcode byte at `pc`, the procedure and the model's fetch and decode phases read the same operand
bytes and check the same registers, whatever the number of operand bytes. -/
theorem decodeProcedure_of_opcode : decodeProcedure s = fetchDecode s := by
  cases o with
  | halt | ret =>
    rw [fetchDecode_zero_operands hop rfl]
    simp [decodeProcedure, hop, ok_bind, assigned, Opcode.byte, instructionOf, Opcode.instr]
  | push | pop | printRegister | call | jump | jumpIfEqual | jumpIfNotEqual =>
    rw [fetchDecode_one_operand hop rfl]
    refine Eq.trans ?_ (bind_congr fun a => (checkOperands_one (a := a) rfl).symm)
    simp [decodeProcedure, hop, ok_bind, error_bind, assigned, Opcode.byte, instructionOf, Opcode.instr]
  | loadImmediate =>
    rw [fetchDecode_two_operands hop rfl]
    refine Eq.trans ?_ (bind_congr fun a => bind_congr fun b => (checkOperands_one (a := a) rfl).symm)
    simp [decodeProcedure, hop, ok_bind, error_bind, assigned, Opcode.byte, instructionOf, Opcode.instr]
  | add | multiply | compare =>
    rw [fetchDecode_two_operands hop rfl]
    refine Eq.trans ?_ (bind_congr fun a => bind_congr fun b => (checkOperands_two (a := a) (b := b) rfl).symm)
    simp [decodeProcedure, hop, ok_bind, error_bind, assigned, Opcode.byte, instructionOf, Opcode.instr]

end

/-- The model's fetch and decode phases are the spec's procedure (R111, R112, R208). -/
theorem decodeProcedure_eq_fetchDecode (s : State) : decodeProcedure s = fetchDecode s := by
  cases hread : memRead s.pc s with
  | error e =>
    obtain ⟨hpc, rfl⟩ := memRead_error_iff.1 hread
    rw [fetchDecode_outside hpc]
    simp [decodeProcedure, hread, error_bind]
  | ok opc =>
    by_cases hassigned : opc ∈ assigned
    · obtain ⟨o, ho⟩ := mem_assigned_iff.1 hassigned
      obtain rfl := opcodeOf_some.1 ho
      exact decodeProcedure_of_opcode hread
    · obtain ⟨hpc, rfl⟩ := memRead_ok_iff.1 hread
      rw [fetchDecode_unassigned hpc hassigned]
      simp [decodeProcedure, hread, ok_bind, error_bind, hassigned]

/-! ### The step of a running state -/

/-- The first of the bytes that stand at `pc` stand there too. -/
theorem codeAt_of_append {s : State} {bs cs : List Byte} (h : codeAt s (bs ++ cs)) : codeAt s bs := by
  obtain ⟨hfit, hcells⟩ := h
  rw [List.length_append] at hfit
  refine ⟨by omega, fun k hk => ?_⟩
  rw [hcells k (by rw [List.length_append]; omega), List.getElem_append_left hk]

/-- A running state has a next state: both the execute phase and an exception end in one (R116). -/
theorem step_total {s : State} (h : s.status = .running) : ∃ t, step s = .next t := by
  cases hf : fetchDecode s with
  | ok i => rw [step_of_fetched h hf]; exact exec_total i s
  | error e => exact ⟨_, step_of_exception h hf⟩

/-- `Reset(img)` leaves a state that meets the invariant, for every image it accepts (R240 to R243). -/
theorem State.Inv.of_boot {img : List Byte} {s : State} (h : Machine.boot img = .next s) : s.Inv := by
  obtain ⟨hlen, rfl⟩ := boot_next_iff.1 h
  exact {
    memWf := Memory.wf_ofImage img hlen
    flags := .inl rfl
    pcBound := Nat.zero_le 256
    exclusive := fun _ => rfl
    record := by rintro _ ⟨⟩ }

end Sys2Proof.Machine
end

/-! ## The statements of 40_cycle_and_system.md -/

section
open Sys2Proof Sys2Proof.Machine Sys2Proof.Spec

namespace Sys2Proof.Proofs

/-- Settles O25: an instruction completes, or raises, alike with any history, and appends what it emits. -/
theorem outputIsAppendOnlyAndUnread : Obligations.OutputIsAppendOnlyAndUnread :=
  fun _ _ _ h => ⟨exec_out h, exec_append_out h⟩

/-- Settles O27: a well-formed instruction completes, and no completed execute phase writes the record. -/
theorem executePhaseRaisesNothing : Obligations.ExecutePhaseRaisesNothing := by
  intro i s hw
  obtain ⟨t, hc⟩ := exists_completes hw s
  exact ⟨t, exec_of_completes hc, hc.fault_eq⟩

/-- Settles O29: the procedure is the model's fetch and decode phases, and the step of a running state goes on from what
they answer. -/
theorem stepFollowsTheDecodeProcedure : Obligations.StepFollowsTheDecodeProcedure := by
  intro s hrun
  rw [decodeProcedure_eq_fetchDecode]
  cases hf : fetchDecode s with
  | ok i => exact step_of_fetched hrun hf
  | error e => exact step_of_exception hrun hf

/-- Settles O31: with nothing to fetch, the decode phase raises for the byte at `pc`. -/
theorem fetchPastMemoryRaises : Obligations.FetchPastMemoryRaises :=
  fun _ hrun hpc => step_of_exception hrun (fetchDecode_outside hpc)

/-- Settles O32: the execute phase and the exception of the decode phase both end in a next state. -/
theorem runningStateHasANextState : Obligations.RunningStateHasANextState := fun _ hrun => step_total hrun

/-- Settles O47: by induction over the run; `boot` establishes the invariant and every step keeps it. -/
theorem invariantOfEveryRun : Obligations.InvariantOfEveryRun :=
  fun _ _ h => h.induct (fun _ hb => .of_boot hb) (fun _ _ hs hstep => hs.step hstep)

/-- Settles O8: HALT has no operand and always completes. -/
theorem haltResult : Obligations.HaltResult := fun _ => exec_of_completes .halt

/-- Settles O9: with an operand that names a register PRINT_REGISTER completes. -/
theorem printRegisterResult : Obligations.PrintRegisterResult := fun _ _ _ ha => exec_of_completes (.printRegister ha)

/-- Settles O28: the decoded bytes begin with the instruction's encoding, so the fetch at `pc` finds it. -/
theorem stepRunsTheDecodedInstruction : Obligations.StepRunsTheDecodedInstruction := by
  intro s bs rest i hrun hcode hdecode
  obtain ⟨hw, rfl⟩ := decode_ok hdecode
  exact ⟨hw, step_of_fetched hrun (fetchDecode_of_codeAt hw (codeAt_of_append hcode))⟩

/-- Settles O33: the terminal states are where `step` stops, each with its own fault. -/
theorem terminalStateHasNoStep : Obligations.TerminalStateHasNoStep :=
  ⟨fun _ h => step_fault_iff.2 (.inl ⟨h, rfl⟩), fun _ h => step_fault_iff.2 (.inr ⟨h, rfl⟩)⟩

end Sys2Proof.Proofs
end

/-! ## The statements of 41_data_movement.md -/

section
open Sys2Proof Sys2Proof.Machine Sys2Proof.Spec

namespace Sys2Proof.Proofs

/-- Settles O48: LOAD_IMMEDIATE leaves `OUT` alone and `v` in register `r`, which is what PRINT_REGISTER then emits. -/
theorem loadThenPrintEmitsTheImmediate : Obligations.LoadThenPrintEmitsTheImmediate := by
  intro s a v r ha
  refine ⟨_, _, exec_of_completes (.loadImmediate ha), exec_of_completes (.printRegister ha), ?_⟩
  rw [advance_out, emit_out, advance_out, setReg_out, advance_reg, setReg_reg_self]

/-- Settles O10: with an operand that names a register LOAD_IMMEDIATE completes, whatever the immediate. -/
theorem loadImmediateResult : Obligations.LoadImmediateResult :=
  fun _ _ _ _ ha => exec_of_completes (.loadImmediate ha)

end Sys2Proof.Proofs
end

/-! ## The statements of 42_alu.md -/

section
open Sys2Proof Sys2Proof.Machine Sys2Proof.Spec

namespace Sys2Proof.Machine

/-- Each way the fetch and decode phases raise has a cause of its own, and none is `UnsupportedOperation` (R148, R204). -/
theorem fetchDecode_ne_unsupportedOperation (s : State) (opc : Byte) :
    fetchDecode s ≠ .error (.unsupportedOperation opc) := by
  intro h
  obtain ⟨k, -, -, he⟩ | ⟨-, -, he⟩ | ⟨b, -, -, he⟩ := fetchDecode_error h <;> cases he

/-- `trunc8` is the reduction modulo 256 of R140, written out (D4). -/
theorem trunc8_eq_ofNat_mod (v : Nat) : trunc8 v = BitVec.ofNat 8 (v % 256) :=
  BitVec.eq_of_toNat_eq (by simp [trunc8_toNat])

theorem add8_eq (p q : Byte) : add8 p q = BitVec.ofNat 8 ((p.toNat + q.toNat) % 256) := trunc8_eq_ofNat_mod _

theorem mul8_eq (p q : Byte) : mul8 p q = BitVec.ofNat 8 ((p.toNat * q.toNat) % 256) := trunc8_eq_ofNat_mod _

/-- `cmp8` as a choice among three values: the bit places of D2, the unsigned order of D3. -/
theorem cmp8_eq (p q : Byte) :
    cmp8 p q =
      if p.toNat < q.toNat then 0b00000100#8 else if p.toNat > q.toNat then 0b00000010#8 else 0b00000001#8 := rfl

end Sys2Proof.Machine

namespace Sys2Proof.Proofs

/-- Settles O35: a completed execute phase leaves the empty record of the running state it started from, and the decode
phase raises only causes it has a situation for. -/
theorem unsupportedOperationNeverRaised : Obligations.UnsupportedOperationNeverRaised := by
  intro s t opc fpc h hf
  obtain ⟨hrun, ⟨i, -, hc⟩ | ⟨e, he, rfl⟩⟩ := step_completes_or_raises h
  · have hnone : t.fault = none := hc.fault_eq.trans (status_running.1 hrun).2
    cases hnone.symm.trans hf
  · have hcause : e = .unsupportedOperation opc := congrArg FaultRecord.error (Option.some.inj hf)
    exact fetchDecode_ne_unsupportedOperation s opc (hcause ▸ he)

/-- Settles O11: with operands that name registers ADD completes, and `add8` is the sum modulo 256. -/
theorem addResult : Obligations.AddResult := by
  intro s a b ra rb ha hb
  rw [← add8_eq]
  exact exec_of_completes (.add ha hb)

/-- Settles O12: with operands that name registers MULTIPLY completes, and `mul8` is the product modulo 256. -/
theorem multiplyResult : Obligations.MultiplyResult := by
  intro s a b ra rb ha hb
  rw [← mul8_eq]
  exact exec_of_completes (.multiply ha hb)

/-- Settles O13: with operands that name registers COMPARE completes, and `cmp8` is the value `FL` takes. -/
theorem compareResult : Obligations.CompareResult := by
  intro s a b ra rb ha hb
  rw [← cmp8_eq]
  exact exec_of_completes (.compare ha hb)

end Sys2Proof.Proofs
end

/-! ## The statements of 43_stack.md -/

section
open Sys2Proof Sys2Proof.Machine Sys2Proof.Spec

namespace Sys2Proof.Machine

/-- PUSH and CALL alone store, one below the top of the stack (R54, R60, R160). -/
theorem storeAddress_eq_some {i : Instr} {s : State} {x : Nat} (h : storeAddress i s = some x) :
    (i.opcode = .push ∨ i.opcode = .call) ∧ x = (s.sp - 1#8).toNat := by
  have haddr : (zext9 s.decSp.sp).toNat = (s.sp - 1#8).toNat := by rw [zext9_toNat, decSp_sp]
  cases i with
  | push => exact ⟨.inl rfl, (Option.some.inj h).symm.trans haddr⟩
  | call => exact ⟨.inr rfl, (Option.some.inj h).symm.trans haddr⟩
  | halt | ret | pop | printRegister | jump | jumpIfEqual | jumpIfNotEqual | loadImmediate | add | multiply
  | compare => cases h

/-- After a PUSH the new top of the stack holds the register pushed; register 7 is pushed decremented (R161; D9). -/
theorem Completes.sp_cell_of_push {s t : State} {a : Byte} {r : Fin 8} (hm : s.mem.wf = true) (ha : names a r)
    (hr : r ≠ 7) (h : Completes s (.push a) t) : t.sp = s.sp - 1#8 ∧ t.cell t.sp.toNat = s.reg r := by
  cases h with
  | push hb =>
    obtain rfl := eq_of_names ha hb
    have hcell : (s.decSp.setCell s.decSp.sp.toNat (s.decSp.reg r)).cell s.decSp.sp.toNat = s.reg r := by
      rw [setCell_cell (s := s.decSp) hm, if_pos rfl, decSp_reg, if_neg hr]
    exact ⟨decSp_sp s, hcell⟩

/-- POP into a register other than 7 loads the byte at the top of the stack and increments the old `SP` (R163). -/
theorem Completes.reg_sp_of_pop {s t : State} {a : Byte} {r : Fin 8} (ha : names a r) (hr : r ≠ 7)
    (h : Completes s (.pop a) t) : t.reg r = s.cell s.sp.toNat ∧ t.sp = s.sp + 1#8 := by
  cases h with
  | pop hb =>
    obtain rfl := eq_of_names ha hb
    rw [advance_reg, incSp_reg, if_neg hr, setReg_reg_self, advance_sp, incSp_sp, setReg_sp_of_ne s hr]
    exact ⟨rfl, rfl⟩

/-- POP R7 increments the byte it has just loaded (R163; D9). -/
theorem setReg_seven_incSp (s : State) (v : Byte) : (s.setReg 7 v).incSp = s.setReg 7 (v + 1#8) := by
  have hsp : (s.setReg 7 v).sp = v := setReg_reg_self s 7 v
  rw [State.incSp, hsp]
  exact setReg_setReg_self s 7 v _

end Sys2Proof.Machine

namespace Sys2Proof.Proofs

/-- Settles O36: a completed execute phase changes memory at `storeAddress` alone, which only PUSH and CALL have, and an
exception changes no memory. -/
theorem onlyPushAndCallWriteMemory : Obligations.OnlyPushAndCallWriteMemory := by
  intro s t x hstep hne
  obtain ⟨-, ⟨i, hi, hc⟩ | ⟨e, -, rfl⟩⟩ := step_completes_or_raises hstep
  · have hstore : storeAddress i s = some x := Decidable.by_contra fun h => hne (hc.cell_of_ne_storeAddress h)
    obtain ⟨hop, hx⟩ := storeAddress_eq_some hstore
    obtain ⟨-, -, hbyte⟩ := fetchDecode_ok hi
    rw [hbyte]
    exact ⟨hop.imp (congrArg Opcode.byte) (congrArg Opcode.byte), hx⟩
  · exact absurd rfl hne

/-- Settles O49: POP loads the byte PUSH stored and undoes its decrement of `SP`; the frames of both give the other
registers. -/
theorem pushThenPopRoundTrip : Obligations.PushThenPopRoundTrip := by
  intro s a c r q hm ha hc hr hq
  obtain ⟨u, hpush⟩ : ∃ u, Completes s (.push a) u := ⟨_, .push ha⟩
  obtain ⟨t, hpop⟩ : ∃ t, Completes u (.pop c) t := ⟨_, .pop hc⟩
  obtain ⟨husp, hucell⟩ := hpush.sp_cell_of_push hm ha hr
  obtain ⟨htreg, htsp⟩ := hpop.reg_sp_of_pop hc hq
  have hsp : t.sp = s.sp := by rw [htsp, husp, BitVec.sub_add_cancel]
  have htcell : t.cell u.sp.toNat = u.cell u.sp.toNat := hpop.cell_of_ne_storeAddress (by simp [storeAddress])
  refine ⟨u, t, exec_of_completes hpush, exec_of_completes hpop, htreg.trans hucell, hsp, ?_, fun p hp => ?_⟩
  · rw [← husp, htcell, hucell]
  · by_cases hp7 : p = 7
    · subst hp7
      exact hsp
    · have hpq : ¬ names c p := fun h => hp (eq_of_names h hc)
      calc t.reg p = u.reg p := hpop.reg_of_not_writes (not_or.2 ⟨hpq, hp7⟩)
        _ = s.reg p := hpush.reg_of_not_writes hp7

/-- Settles O14: with an operand that names a register PUSH completes, and reads it after the decrement of `SP`. -/
theorem pushResult : Obligations.PushResult := by
  intro s a r ha
  rw [← decSp_reg]
  have h : exec (.push a) s = _ := exec_of_completes (.push ha)
  rw [decSp_sp] at h
  exact h

/-- Settles O15: with an operand that names a register POP completes; the increment reads the byte loaded when that
register is 7, and the old `SP` otherwise. -/
theorem popResult : Obligations.PopResult := by
  intro s a r ha
  rw [exec_of_completes (.pop ha)]
  by_cases hr : r = 7
  · subst hr
    rw [setReg_seven_incSp, if_pos rfl]
    rfl
  · rw [State.incSp, setReg_sp_of_ne s hr, if_neg hr]
    rfl

end Sys2Proof.Proofs
end

/-! ## The statements of 44_control_transfer.md -/

section
open Sys2Proof Sys2Proof.Machine Sys2Proof.Spec

namespace Sys2Proof.Machine

/-- After a CALL the new top of the stack holds the return address cut to a byte (R170; D4, D8). -/
theorem Completes.sp_cell_of_call {s t : State} {a : Byte} (hm : s.mem.wf = true) (h : Completes s (.call a) t) :
    t.sp = s.sp - 1#8 ∧ t.cell t.sp.toNat = returnAddress s := by
  cases h with
  | call =>
    have hcell : (s.decSp.setCell s.decSp.sp.toNat (returnAddress s)).cell s.decSp.sp.toNat = returnAddress s := by
      rw [setCell_cell (s := s.decSp) hm, if_pos rfl]
    exact ⟨decSp_sp s, hcell⟩

/-- CALL jumps to the register it names, the decremented `SP` being what register 7 gives (R170; D9). -/
theorem Completes.pc_of_call {s t : State} {a : Byte} {r : Fin 8} (ha : names a r) (h : Completes s (.call a) t) :
    t.pc = (if r = 7 then s.sp - 1#8 else s.reg r).setWidth 9 := by
  cases h with
  | call hb =>
    obtain rfl := eq_of_names ha hb
    exact congrArg zext9 (decSp_reg s r)

/-- RETURN takes `pc` from the top of the stack and increments `SP` (R172; D4). -/
theorem Completes.pc_sp_of_ret {s t : State} (h : Completes s .ret t) :
    t.pc = zext9 (s.cell s.sp.toNat) ∧ t.sp = s.sp + 1#8 := by
  cases h with
  | ret => exact ⟨rfl, incSp_sp _⟩

/-- A return address inside memory is stored whole (R170; D8). -/
theorem returnAddress_toNat_of_le {s : State} (h : s.pc.toNat ≤ 253) : (returnAddress s).toNat = s.pc.toNat + 2 := by
  rw [returnAddress, trunc8_toNat]
  omega

/-- Of the three values a comparison leaves, the one with `E` set is left on equal operands (R141, R146; D2). -/
theorem cmp8_equalBit (p q : Byte) : (cmp8 p q)[0] = decide (p = q) := by
  rw [cmp8_eq]
  split
  · have hne : p ≠ q := by bv_omega
    simp [hne]
  · split
    · have hne : p ≠ q := by bv_omega
      simp [hne]
    · have heq : p = q := by bv_omega
      simp [heq]

end Sys2Proof.Machine

namespace Sys2Proof.Proofs

/-- Settles O16: with an operand that names a register CALL completes; `returnAddress` is the low byte of `pc + 2`, and
the target is read after the decrement of `SP`. -/
theorem callResult : Obligations.CallResult := by
  intro s a r ha
  have h : exec (.call a) s = _ := exec_of_completes (.call ha)
  rw [returnAddress, trunc8_eq_ofNat_mod, decSp_sp] at h
  rw [← decSp_reg]
  exact h

/-- Settles O17: RETURN has no operand and always completes. -/
theorem returnResult : Obligations.ReturnResult := fun _ => exec_of_completes .ret

/-- Settles O18: with an operand that names a register JUMP completes. -/
theorem jumpResult : Obligations.JumpResult := fun _ _ _ ha => exec_of_completes (.jump ha)

/-- Settles O19: JUMP_IF_EQUAL completes on the path `FL.E` picks. -/
theorem jumpIfEqualResult : Obligations.JumpIfEqualResult := by
  intro s a r ha
  split
  · next hE => exact exec_of_completes (.jumpIfEqual_taken ha hE)
  · next hE => exact exec_of_completes (.jumpIfEqual_fallThrough ha (Bool.eq_false_of_not_eq_true hE))

/-- Settles O20: JUMP_IF_NOT_EQUAL completes on the path `FL.E` picks. -/
theorem jumpIfNotEqualResult : Obligations.JumpIfNotEqualResult := by
  intro s a r ha
  split
  · next hE => exact exec_of_completes (.jumpIfNotEqual_taken ha hE)
  · next hE => exact exec_of_completes (.jumpIfNotEqual_fallThrough ha (Bool.eq_true_of_not_eq_false hE))

/-- Settles O50: RETURN reads the return address where CALL stored it, whole for a CALL at 253 or below, and undoes its
decrement of `SP`. -/
theorem callThenReturnResumes : Obligations.CallThenReturnResumes := by
  intro s a r hm ha hr hpc
  obtain ⟨u, hcall⟩ : ∃ u, Completes s (.call a) u := ⟨_, .call ha⟩
  obtain ⟨husp, hucell⟩ := hcall.sp_cell_of_call hm
  refine ⟨u, exec_of_completes hcall, by rw [hcall.pc_of_call ha, if_neg hr], fun w hwsp hwcell => ?_⟩
  obtain ⟨t, hret⟩ : ∃ t, Completes w .ret t := ⟨_, .ret⟩
  obtain ⟨htpc, htsp⟩ := hret.pc_sp_of_ret
  refine ⟨t, exec_of_completes hret, ?_, ?_⟩
  · rw [htpc, zext9_toNat, hwsp, hwcell, hucell, returnAddress_toNat_of_le hpc]
  · rw [htsp, hwsp, husp, BitVec.sub_add_cancel]

/-- Settles O51: COMPARE leaves `E` as the equality of the operands and `pc` 3 further, from where the conditional jumps
go on. -/
theorem compareThenBranch : Obligations.CompareThenBranch := by
  intro s a b c ra rb rc ha hb hc
  have hpc : s.pc + 3#9 + 2#9 = s.pc + 5#9 := BitVec.add_assoc _ _ _
  refine ⟨_, _, _, exec_of_completes (.compare ha hb), jumpIfEqualResult _ c rc hc, jumpIfNotEqualResult _ c rc hc,
    fun heq => ?_, fun hne => ?_⟩
  · simp [cmp8_equalBit, heq, hpc]
  · simp [cmp8_equalBit, hne, hpc]

end Sys2Proof.Proofs
end

/-! ## The statements of 60_exceptions.md -/

section
open Sys2Proof Sys2Proof.Machine Sys2Proof.Spec

namespace Sys2Proof.Machine

/-- Taking an exception in a running state ends the run (R34, R206). -/
theorem raise_status {s : State} (h : s.status = .running) (e : FatalError) : (raise e s).status = .faulted :=
  status_faulted.2 ⟨(status_running.1 h).1, Option.some_ne_none _⟩

/-- A next state exists from a running state alone (R110). -/
theorem step_ne_next_of_not_running {s : State} (h : s.status ≠ .running) (t : State) : step s ≠ .next t :=
  fun hstep => h (step_next_cases hstep).1

end Sys2Proof.Machine

namespace Sys2Proof.Proofs

/-- Settles O34: a completed execute phase leaves the record alone, so a step that changes it is one that raises, and
that ends the run. -/
theorem exceptionsArePrecise : Obligations.ExceptionsArePrecise := by
  intro s t h hchanged
  obtain ⟨hrun, ⟨i, -, hc⟩ | ⟨e, -, rfl⟩⟩ := step_completes_or_raises h
  · exact absurd hc.fault_eq hchanged
  · have hfaulted : (raise e s).status = .faulted := raise_status hrun e
    have hstopped : (raise e s).status ≠ .running := by simp [hfaulted]
    exact ⟨e, raise_eq e s, (status_running.1 hrun).2, hfaulted, step_ne_next_of_not_running hstopped⟩

/-- Settles O52: the three codes are the values `FatalError.code` gives, whatever the `info` (R201; D14). -/
theorem exceptionCodes : Obligations.ExceptionCodes := fun _ _ => ⟨rfl, rfl, rfl⟩

end Sys2Proof.Proofs
end

/-! ## The statements of 70_reset_and_hazards.md -/

section
open Sys2Proof Sys2Proof.Machine Sys2Proof.Spec

namespace Sys2Proof.Machine

/-- What `Reset(img)` leaves in memory: the image from address 0 up, then the fill byte (R241). -/
theorem boot_cell {img : List Byte} {s : State} (h : boot img = .next s) (i : Nat) :
    s.cell i = img.getD i Config.memFill := by
  obtain ⟨hlen, rfl⟩ := boot_next_iff.1 h
  have hfit : 0 + img.length ≤ Config.memSize := by simpa [Config.memSize, Config.imgMax] using hlen
  simpa [State.cell, Config.imgBase] using Memory.cell_ofImage hfit i

/-- An image that does not fit is refused by name, and no other is (R242; D19). -/
theorem boot_refused_iff {img : List Byte} : boot img = .refused .imageTooLong ↔ Config.imgMax < img.length := by
  unfold boot
  split <;> simp_all

end Sys2Proof.Machine

namespace Sys2Proof.Proofs

/-- Settles O3: an image that fits is accepted, and a cell holds the image's byte at its address where there is one. -/
theorem bootPlacesTheImage : Obligations.BootPlacesTheImage := by
  intro img hlen
  have hboot := boot_next_iff.2 ⟨hlen, rfl⟩
  refine ⟨_, hboot, rfl, fun i hi => ?_, fun i hi _ => ?_⟩
  · rw [boot_cell hboot, List.getD_eq_getElem _ _ hi]
  · rw [boot_cell hboot, List.getD_eq_default _ _ hi, Config.memFill]

/-- Settles O4: acceptance is decided by the length alone, and an accepted image goes to memory and to nothing else. -/
theorem bootRefusesLongImages : Obligations.BootRefusesLongImages := by
  refine ⟨fun img hlong => boot_refused_iff.2 hlong, fun img s h => ?_⟩
  obtain ⟨-, rfl⟩ := boot_next_iff.1 h
  exact ⟨rfl, rfl, rfl, rfl, rfl, rfl⟩

end Sys2Proof.Proofs
end

/-! ## The placing of an instruction where the next step fetches it (log entry 3) -/

section
open Sys2Proof Sys2Proof.Machine Sys2Proof.Spec

namespace Sys2Proof.Machine

/-- Memory is the one component that placing bytes changes. -/
theorem placeBytes_eq (s : State) (a : Nat) (bs : List Byte) :
    s.placeBytes a bs = { s with mem := (s.placeBytes a bs).mem } := by
  induction bs generalizing s a with
  | nil => rfl
  | cons b bs ih =>
    rw [State.placeBytes]
    split
    · exact ih (s.setCell a b) (a + 1)
    · exact ih s (a + 1)

/-- Bytes placed from address `a` up leave every cell below `a` alone. -/
theorem placeBytes_cell_below (s : State) {a x : Nat} (hx : x < a) (bs : List Byte) :
    (s.placeBytes a bs).cell x = s.cell x := by
  induction bs generalizing s a with
  | nil => rfl
  | cons b bs ih =>
    rw [State.placeBytes, ih _ (Nat.lt_add_one_of_lt hx)]
    split
    · exact Memory.cell_set_ne s.mem hx.ne' b
    · rfl

/-- Bytes placed inside memory stand where they were placed. -/
theorem placeBytes_cell {s : State} (hm : s.mem.wf = true) {a : Nat} {bs : List Byte}
    (hfit : a + bs.length ≤ 256) {k : Nat} (hk : k < bs.length) : (s.placeBytes a bs).cell (a + k) = bs[k] := by
  induction bs generalizing s a k with
  | nil => cases hk
  | cons b bs ih =>
    rw [List.length_cons] at hfit
    have ha : a < Config.memSize := by
      rw [Config.memSize]
      omega
    rw [State.placeBytes, if_pos ha]
    cases k with
    | zero =>
      rw [Nat.add_zero a, placeBytes_cell_below _ (Nat.lt_add_one a), setCell_cell hm, if_pos rfl]
      rfl
    | succ k =>
      have hadd : a + (k + 1) = a + 1 + k := by omega
      have hfit' : a + 1 + bs.length ≤ 256 := by omega
      rw [hadd]
      exact ih (s := s.setCell a b) (Memory.wf_set hm ha b) hfit' (Nat.lt_of_succ_lt_succ hk)

theorem withFetchWord_eq (s : State) (nbits w : Nat) :
    s.withFetchWord nbits w = { s with mem := (s.withFetchWord nbits w).mem } := placeBytes_eq s _ _

theorem withFetchWord_pc (s : State) (nbits w : Nat) : (s.withFetchWord nbits w).pc = s.pc := by
  rw [withFetchWord_eq]

theorem withFetchWord_status (s : State) (nbits w : Nat) : (s.withFetchWord nbits w).status = s.status := by
  rw [withFetchWord_eq]
  rfl

/-- The three bytes of a word placed at 253 or below stand at `pc`. -/
theorem codeAt_withFetchWord {s : State} (hm : s.mem.wf = true) (hpc : s.pc.toNat ≤ 253) (nbits w : Nat) :
    codeAt (s.withFetchWord nbits w) (tableBytes nbits w) := by
  have hfit : s.pc.toNat + (tableBytes nbits w).length ≤ 256 := Nat.add_le_add_right hpc 3
  rw [codeAt, withFetchWord_pc]
  exact ⟨hfit, fun _ hk => placeBytes_cell hm hfit hk⟩

/-- What is read from a word is what the decoder accepts at the front of the word's bytes. -/
theorem decodeTableWord_eq_some {nbits w : Nat} {i : Instr} (h : decodeTableWord nbits w = some i) :
    ∃ rest, decode (tableBytes nbits w) = .ok (i, rest) := by
  unfold decodeTableWord at h
  split at h
  · next hd =>
    cases h
    exact ⟨_, hd⟩
  · cases h

end Sys2Proof.Machine

namespace Sys2Proof.Proofs

/-- Settles O39: the bytes of the word stand at `pc` of a running state, so the step runs what the decoder reads from
them. -/
theorem placedWordRuns : Obligations.PlacedWordRuns := by
  intro s nbits w i hrun hm hpc hword
  obtain ⟨rest, hdecode⟩ := decodeTableWord_eq_some hword
  have hrun' : (s.withFetchWord nbits w).status = .running := (withFetchWord_status s nbits w).trans hrun
  obtain ⟨-, hstep⟩ :=
    stepRunsTheDecodedInstruction _ _ rest i hrun' (codeAt_withFetchWord hm hpc nbits w) hdecode
  exact ⟨hstep, withFetchWord_eq s nbits w⟩

end Sys2Proof.Proofs
end
